-- ==== Sys2Proof/Word.lean ====
section
/-! DEFINITION. The widths that cross the block's ports, and the two selector enumerations of the data model
(spec 00_scope.md R8, R9, R13; 30_encoding.md R62, R63). -/

namespace Sys2Proof

/-- An 8-bit value: a channel R, G or B, the data of a B8 element, or ECODE (R8, R12, R24). -/
abbrev Byte := BitVec 8

/-- A 16-bit value: the data of an H16 element (R8, R12). -/
abbrev Half := BitVec 16

/-- A 32-bit value: a command word or a status register (R8, R27, R60). -/
abbrev Word := BitVec 32

/-- A status register index RIDX, 2 bits (R27). -/
abbrev RegIndex := BitVec 2

/-- The two byte orders (R13, R63). -/
inductive ByteOrder where
  | little
  | big
deriving DecidableEq, Repr

/-- The four output formats, in the order of their codes (R3, R62). -/
inductive OutputFormat where
  | rgb565
  | rgb332
  | gray8
  | rgb565Bytes
deriving DecidableEq, Repr

end Sys2Proof
end

