-- ==== Sys2Proof/Syntax.lean ====
section
/-! DEFINITION. The commands: one constructor per row of spec/opcode_table.json (spec 30_encoding.md R62, R66). -/

namespace Sys2Proof

/-- A legal decoded command. The operands are the fields BO, R, G and B of its word (R61); every value of each of
them is legal for every format (R63, R65). -/
inductive Instr where
  /-- `Q565.LE` / `Q565.BE`: RGB565, one 16-bit element (R100). -/
  | q565 (bo : ByteOrder) (r g b : Byte)
  /-- `Q332`: RGB332, one 8-bit element; bo is read and has no effect (R120). -/
  | q332 (bo : ByteOrder) (r g b : Byte)
  /-- `QGRAY`: GRAY8, one 8-bit element; bo is read and has no effect (R140). -/
  | qgray (bo : ByteOrder) (r g b : Byte)
  /-- `Q565S.LE` / `Q565S.BE`: RGB565 split into two 8-bit elements, high byte first (R160). -/
  | q565s (bo : ByteOrder) (r g b : Byte)
deriving DecidableEq, Repr

end Sys2Proof
end

