-- ==== Sys2Proof/Decode.lean ====
section
/-! DEFINITION. The decoder and the encoder of command words (spec 30_encoding.md R60 to R67). -/

namespace Sys2Proof

/-- `FMT = w[31:30]` (R60, R61). -/
def fieldFmt (w : Word) : BitVec 2 := w.extractLsb' 30 2

/-- `BO = w[29]` (R60, R61). -/
def fieldBo (w : Word) : BitVec 1 := w.extractLsb' 29 1

/-- `RSV = w[28:24]` (R60). -/
def fieldRsv (w : Word) : BitVec 5 := w.extractLsb' 24 5

/-- `R = w[23:16]` (R60, R61). -/
def fieldR (w : Word) : Byte := w.extractLsb' 16 8

/-- `G = w[15:8]` (R60, R61). -/
def fieldG (w : Word) : Byte := w.extractLsb' 8 8

/-- `B = w[7:0]` (R60, R61). -/
def fieldB (w : Word) : Byte := w.extractLsb' 0 8

/-- The FMT codes (R62). -/
def formatOfCode (f : BitVec 2) : OutputFormat :=
  if f = 0#2 then .rgb565 else if f = 1#2 then .rgb332 else if f = 2#2 then .gray8 else .rgb565Bytes

/-- The FMT codes (R62). -/
def codeOfFormat : OutputFormat → BitVec 2
  | .rgb565 => 0#2
  | .rgb332 => 1#2
  | .gray8 => 2#2
  | .rgb565Bytes => 3#2

/-- BO: 0 is Little, 1 is Big (R63). -/
def byteOrderOfBit (b : BitVec 1) : ByteOrder := if b = 0#1 then .little else .big

/-- BO: 0 is Little, 1 is Big (R63). -/
def bitOfByteOrder : ByteOrder → BitVec 1
  | .little => 0#1
  | .big => 1#1

/-- The command of a format with its operands (R62). -/
def instrOf (fmt : OutputFormat) (bo : ByteOrder) (r g b : Byte) : Instr :=
  match fmt with
  | .rgb565 => .q565 bo r g b
  | .rgb332 => .q332 bo r g b
  | .gray8 => .qgray bo r g b
  | .rgb565Bytes => .q565s bo r g b

/-- Why a word is no command (R64): its reserved bits, which are not 0. -/
inductive DecodeError where
  | reservedBitsSet (rsv : BitVec 5)
deriving DecidableEq, Repr

/-- `Decode(w)` (R66): total on all words (R65). -/
def decode (w : Word) : Except DecodeError Instr :=
  if fieldRsv w ≠ 0#5 then .error (.reservedBitsSet (fieldRsv w))
  else .ok (instrOf (formatOfCode (fieldFmt w)) (byteOrderOfBit (fieldBo w)) (fieldR w) (fieldG w) (fieldB w))

/-- One row of R66's table. -/
structure OpcodeRow where
  format : OutputFormat
  mask : Word
  pattern : Word
deriving DecidableEq, Repr

/-- The decoder as match and mask on the whole word (R66, opcode_table.json). -/
def opcodeTable : List OpcodeRow :=
  [ { format := .rgb565, mask := 0xDF000000#32, pattern := 0x00000000#32 },
    { format := .rgb332, mask := 0xDF000000#32, pattern := 0x40000000#32 },
    { format := .gray8, mask := 0xDF000000#32, pattern := 0x80000000#32 },
    { format := .rgb565Bytes, mask := 0xDF000000#32, pattern := 0xC0000000#32 } ]

/-- The row's bits stand in the word (R66). -/
def OpcodeRow.hits (row : OpcodeRow) (w : Word) : Bool := w &&& row.mask == row.pattern

/-- `w = (FMT << 30) | (BO << 29) | (R << 16) | (G << 8) | B`, with RSV = 0 (R60). -/
def encodeFields (fmt : OutputFormat) (bo : ByteOrder) (r g b : Byte) : Word :=
  ((codeOfFormat fmt).setWidth 32 <<< 30) ||| ((bitOfByteOrder bo).setWidth 32 <<< 29)
    ||| (r.setWidth 32 <<< 16) ||| (g.setWidth 32 <<< 8) ||| b.setWidth 32

/-- The word of a command (R60). -/
def encode : Instr → Word
  | .q565 bo r g b => encodeFields .rgb565 bo r g b
  | .q332 bo r g b => encodeFields .rgb332 bo r g b
  | .qgray bo r g b => encodeFields .gray8 bo r g b
  | .q565s bo r g b => encodeFields .rgb565Bytes bo r g b

/-- The format a command names (R62). -/
def Instr.format : Instr → OutputFormat
  | .q565 _ _ _ _ => .rgb565
  | .q332 _ _ _ _ => .rgb332
  | .qgray _ _ _ _ => .gray8
  | .q565s _ _ _ _ => .rgb565Bytes

/-- The 32-bit word whose low `nbits` bits are those of w and whose other bits are 0. A command word crosses 32
parallel wires, so bit i of the table's numbering is bit i of the word (R9, R44, R67). -/
def wordOfTable (nbits w : Nat) : Word := BitVec.ofNat 32 (w % 2 ^ nbits)

/-- What the decoder reads from an instruction of the table whose bits are w. -/
def decodeTableWord (nbits w : Nat) : Option Instr :=
  match decode (wordOfTable nbits w) with
  | .ok i => some i
  | .error _ => none

end Sys2Proof
end

