-- ==== Sys2Proof/Config.lean ====
section
/-! DEFINITION. The implementation parameters of spec 00_scope.md R8. The fixed widths are the types of Word.lean;
the parameters a rule reads are the fields of Params, which State carries unchanged (log entries 1 and 2). -/

namespace Sys2Proof

/-- GRAY_ARITH (R8): the arithmetic of GRAY8. The block's is `exact`; `binary64` is the named alternative of R143. -/
inductive GrayArith where
  | exact
  | binary64
deriving DecidableEq, Repr

/-- The parameters of R8 that some rule reads. -/
structure Params where
  /-- OUT_DEPTH: the capacity of OBUF in elements, open with 2 ≤ OUT_DEPTH ≤ 255 (R8, R30). -/
  outDepth : Nat
  /-- GRAY_ARITH (R8, R140, R143). -/
  grayArith : GrayArith
  /-- SPLIT_SWAPS: whether RGB565_8BIT splits the swapped value when BO = Big (R8, R161). -/
  splitSwaps : Bool
deriving DecidableEq, Repr

/-- The block's parameters at the default depth: OUT_DEPTH = 2, GRAY_ARITH = EXACT, SPLIT_SWAPS = true (R8).
The depth 2 is the spec's default for an open parameter: log entry 1. -/
def Params.default : Params := { outDepth := 2, grayArith := .exact, splitSwaps := true }

/-- LATENCY (R8, R210): open and unconstrained, and no rule depends on it. It has no body and nothing reads it
(log entry 12). -/
opaque Config.latency : Nat

end Sys2Proof
end

