-- ==== Sys2Proof/Machine/State.lean ====
section
/-! DEFINITION. The state: the block's tuple (spec 10_state.md R22), its parameters (00_scope.md R8) and its
environment (20_memory.md R41, R47). Plain data. -/

namespace Sys2Proof.Machine

/-- An output element: `B8(x)` or `H16(x)` (R12). -/
inductive Element where
  | b8 (x : Byte)
  | h16 (x : Half)
deriving DecidableEq, Repr

/-- The block's state, exactly the tuple of R22. -/
structure Block where
  /-- ERR, the sticky error flag (R23). -/
  err : Bool
  /-- ECODE, the code of the error that set ERR (R24). -/
  ecode : Byte
  /-- ERRWORD, the command word that set ERR (R25). -/
  errword : Word
  /-- PIXCNT, the words completed since reset, modulo 2^32 (R26). -/
  pixcnt : Word
  /-- OBUF, the elements produced and not yet taken, the head first (R30). -/
  obuf : List Element
deriving DecidableEq, Repr

/-- One step of one agent (R47, R48). -/
inductive Move where
  /-- The producer's offer meets the block: a command step if a word is offered and the block is ready (R90). -/
  | command
  /-- The consumer takes the head element (R43). -/
  | take
  /-- The status reader reads register `idx` (R27). -/
  | read (idx : RegIndex)
  /-- The reset source asserts `rst`, or holds it asserted: the reset step (R200, R201). -/
  | assertReset
  /-- The reset source deasserts `rst` (R201). -/
  | releaseReset
deriving DecidableEq, Repr

/-- The agents around the block (R47), as far as a run needs them: the model's own fields (log entries 4, 8, 11). -/
structure Env where
  /-- The level of the `rst` input (R41, R201). -/
  rst : Bool
  /-- The agents' moves to come, the next one first: the total order of R48. -/
  moves : List Move
  /-- The words the producer has still to send, in order; the head is on `cmd_data` and `cmd_valid` is 1 exactly when
  there is one (R41, R45). -/
  cmds : List Word
  /-- The elements the consumer has taken, in order (R43). -/
  taken : List Element
  /-- What the status reader has read, in order: the index and the value (R27). -/
  reads : List (RegIndex × Word)
deriving DecidableEq, Repr

/-- The machine. -/
structure State where
  /-- The parameters of R8, which no step changes. -/
  params : Params
  /-- A reset has happened since power-up (R202). -/
  resetSeen : Bool
  /-- The block's state (R22). -/
  block : Block
  /-- The agents around it (R47). -/
  env : Env
deriving DecidableEq, Repr

/-- The model's faults: none. The block's one error is a change of its state, ERR, ECODE and ERRWORD, after which it
goes on (R180, R182, R184); nothing the spec describes stops the machine (log entry 14). -/
inductive Fault where
deriving DecidableEq, Repr

/-- The reasons a step has no meaning. -/
inductive Refusal where
  /-- Raised by an arm of exec whose instruction has no meaning yet; safe. No arm raises it. -/
  | notModelled (mnemonic : String)
  /-- Raised by a command step, a Take or a status read placed before the first reset, where the block's state is
  unspecified (R202: a model refuses it, as having no meaning); safe. -/
  | beforeFirstReset
deriving DecidableEq, Repr

/-- The outcome of a step. -/
abbrev Result := Host.Outcome State Fault Refusal

/-- Every piece of the block's state after reset (R33). -/
def Block.reset : Block := { err := false, ecode := 0x00#8, errword := 0x00000000#32, pixcnt := 0x00000000#32, obuf := [] }

/-- The environment with nothing offered, nothing scheduled, nothing yet taken or read, and `rst` deasserted. -/
def Env.idle : Env := { rst := false, moves := [], cmds := [], taken := [], reads := [] }

/-- The machine right after reset, with any parameters (R33, R201). -/
def State.resetWith (p : Params) : State := { params := p, resetSeen := true, block := Block.reset, env := Env.idle }

/-- The machine right after reset (R33), at the default parameters (R8). -/
def State.reset : State := State.resetWith Params.default

end Sys2Proof.Machine
end

