-- ==== Sys2Proof/Machine/Flags.lean ====
section
/-! DEFINITION. The flag ERR and the status registers (spec 10_state.md R23 to R29; 60_exceptions.md R188). No
quantize operation writes a flag. -/

namespace Sys2Proof.Machine

/-- The code INVALID_CMD, the only error (R181). -/
def codeInvalidCmd : Byte := 0x01#8

/-- OUT_COUNT, the occupancy of OBUF in STATUS[23:16] (R28, R30). -/
def Block.outCount (b : Block) : Byte := BitVec.ofNat 8 b.obuf.length

/-- `STATUS = (OUT_COUNT << 16) | (ECODE << 8) | ERR` (R28). Each field has its own width, so the reserved bits are 0 in
every state (log entry 15). -/
def Block.status (b : Block) : Word :=
  (b.outCount.setWidth 32 <<< 16) ||| (b.ecode.setWidth 32 <<< 8) ||| (BitVec.ofBool b.err).setWidth 32

/-- `ReadReg(RIDX)` (R27). -/
def Block.readReg (b : Block) (idx : RegIndex) : Word :=
  if idx = 0#2 then b.status
  else if idx = 1#2 then b.pixcnt
  else if idx = 2#2 then b.errword
  else 0x00000000#32

/-- The `err` output, equal to ERR at all times (R188). -/
def State.errOut (s : State) : Bool := s.block.err

end Sys2Proof.Machine
end

