-- ==== Sys2Proof/Machine/Operands.lean ====
section
/-! DEFINITION. What the operations make of their operands: the shared datapath primitives (spec 40_datapath.md R80,
R83, R84), on natural numbers (00_scope.md R10) and narrowed to a width only where an element is formed. -/

namespace Sys2Proof.Machine

/-- The channel quantizer `Q(v, m) = (v*m + 127) div 255` (R80). -/
def chanLevel (v m : Nat) : Nat := (v * m + 127) / 255

/-- `swap16(v) = ((v & 0xFF) << 8) | (v >> 8)` (R83). -/
def swap16 (v : Nat) : Nat := ((v &&& 0xFF) <<< 8) ||| (v >>> 8)

/-- `pack565(r,g,b) = (Q(r,31) << 11) | (Q(g,63) << 5) | Q(b,31)` (R84). -/
def pack565 (r g b : Nat) : Nat := (chanLevel r 31 <<< 11) ||| (chanLevel g 63 <<< 5) ||| chanLevel b 31

/-- A B8 element of a natural number (R12). -/
def elemB8 (v : Nat) : Element := .b8 (BitVec.ofNat 8 v)

/-- An H16 element of a natural number (R12). -/
def elemH16 (v : Nat) : Element := .h16 (BitVec.ofNat 16 v)

end Sys2Proof.Machine
end

