-- ==== Sys2Proof/Machine/Ops.lean ====
section
/-! DEFINITION. The named operations on the state: the output buffer (spec 20_memory.md R42, R43), readiness and the
command step (40_datapath.md R89, R90), taking the error (60_exceptions.md R182) and the reset, the one way out of it
(70_reset_and_hazards.md R200). -/

namespace Sys2Proof.Machine

/-- `Emit(e)`: `OBUF <- OBUF ++ [e]` (R42). -/
def State.emit (s : State) (e : Element) : State :=
  { s with block := { s.block with obuf := s.block.obuf ++ [e] } }

/-- `for e in es: Emit(e)`, in list order (R90). -/
def State.emitAll (s : State) : List Element → State
  | [] => s
  | e :: es => (s.emit e).emitAll es

/-- `PIXCNT <- (PIXCNT + 1) mod 2^32` (R26). -/
def State.countPixel (s : State) : State :=
  { s with block := { s.block with pixcnt := s.block.pixcnt + 1 } }

/-- `out_valid`: OBUF is not empty and `rst` is deasserted (R41). A Take is enabled exactly then (R43). -/
def State.outValid (s : State) : Bool := !s.env.rst && !s.block.obuf.isEmpty

/-- The effect of `Take()`: the head leaves OBUF and goes to the consumer (R43, log entry 11). -/
def State.takeHead (s : State) : State :=
  match s.block.obuf with
  | [] => s
  | e :: rest =>
    { s with block := { s.block with obuf := rest }, env := { s.env with taken := s.env.taken ++ [e] } }

/-- `cmd_ready` (R89, R201). It does not depend on the word offered. -/
def State.cmdReady (s : State) : Bool :=
  !s.env.rst && (s.block.err || decide (2 ≤ s.params.outDepth - s.block.obuf.length))

/-- The transfer on the command channel: the word offered is consumed (R90). -/
def State.accept (s : State) : State := { s with env := { s.env with cmds := s.env.cmds.tail } }

/-- TAKING THE ERROR: `raise InvalidCommand(w)` (R182). OBUF and PIXCNT stay, and no element is emitted. -/
def State.raiseInvalidCommand (s : State) (w : Word) : State :=
  { s with block := { s.block with err := true, ecode := codeInvalidCmd, errword := w } }

/-- The reset step (R200): every piece of the block's state takes its reset value, and `rst` is now asserted (R201).
The words on offer stay on offer. There is no other way out of the error state (R187). -/
def State.applyReset (s : State) : State :=
  { s with resetSeen := true, block := Block.reset, env := { s.env with rst := true } }

/-- `rst` is deasserted (R201). -/
def State.releaseRst (s : State) : State := { s with env := { s.env with rst := false } }

/-- A status read's value goes to the reader; nothing else changes (R27, R29, log entry 11). -/
def State.recordRead (s : State) (idx : RegIndex) : State :=
  { s with env := { s.env with reads := s.env.reads ++ [(idx, s.block.readReg idx)] } }

/-- The last two lines of a completed word (R90): its elements are appended, then the pixel is counted. -/
def State.complete (s : State) (es : List Element) : State := (s.emitAll es).countPixel

/-- `CommandStep` (R90) for the word on offer, `act` being what an accepted word does while ERR = 0: refused before
the first reset (R202); a hold while the block is not ready, in which nothing changes (R89, R201, log entry 6); in the
terminal state the word is consumed and discarded (R184). The test of ERR comes before what `act` does (R186). -/
def commandStep (act : State → State) (s : State) : Result :=
  if s.resetSeen = false then .refused .beforeFirstReset
  else if s.cmdReady = false then .next s
  else if s.block.err = true then .next s.accept
  else .next (act s.accept)

/-- The command step of an illegal word: `raise InvalidCommand(w)` (R64, R90). -/
def execIllegal (w : Word) (s : State) : Result := commandStep (fun t => t.raiseInvalidCommand w) s

end Sys2Proof.Machine
end

