-- ==== Sys2Proof/Machine/Gray8.lean ====
section
/-! DEFINITION. GRAY8, QGRAY (spec 43_gray8.md): the block's EXACT arithmetic, and the named alternative BINARY64. -/

namespace Sys2Proof.Machine

/-- `s = 299*r + 587*g + 114*b` (R140, R141). -/
def graySum (r g b : Byte) : Nat := 299 * r.toNat + 587 * g.toNat + 114 * b.toNat

/-- IEEE 754 binary64 round-to-nearest-even of a number x, a natural number of units of 2^-56: the 53 leading bits are
kept, and a tie goes to the even one (R143; the 53-bit significand is PRESUMED, log entry 3). -/
def roundBinary64 (x : Nat) : Nat :=
  let k := x.log2 - 52
  let q := x >>> k
  let low := x % 2 ^ k
  if 2 ^ k < 2 * low ∨ (2 * low = 2 ^ k ∧ q % 2 = 1) then (q + 1) <<< k else q <<< k

/-- The binary64 value nearest 0.299, in units of 2^-56 (R143). -/
def weightR : Nat := 21545220617340452

/-- The binary64 value nearest 0.587, in units of 2^-56 (R143). -/
def weightG : Nat := 42297807700263696

/-- The binary64 value nearest 0.114, in units of 2^-56 (R143). -/
def weightB : Nat := 8214565720323785

/-- `fl(fl(fl(0.299*r) + fl(0.587*g)) + fl(0.114*b))`, in units of 2^-56 (R143). -/
def graySumBinary64 (r g b : Byte) : Nat :=
  roundBinary64 (roundBinary64 (roundBinary64 (weightR * r.toNat) + roundBinary64 (weightG * g.toNat))
    + roundBinary64 (weightB * b.toNat))

/-- The luma before the clamp: `s div 1000` in the block's arithmetic (R140), the truncated binary64 sum in the
alternative (R143). -/
def grayLuma (a : GrayArith) (r g b : Byte) : Nat :=
  match a with
  | .exact => graySum r g b / 1000
  | .binary64 => graySumBinary64 r g b / 2 ^ 56

/-- `gray <- min(gray, 255)` (R140, R143). -/
def gray8 (a : GrayArith) (r g b : Byte) : Nat := min (grayLuma a r g b) 255

/-- `Elems(QGRAY(bo,r,g,b)) = [B8(gray8(r,g,b))]` (R88). -/
def elemsQgray (a : GrayArith) (r g b : Byte) : List Element := [elemB8 (gray8 a r g b)]

/-- QGRAY (R140): one B8 element. bo is read and has no effect (R63). -/
def execQgray (_bo : ByteOrder) (r g b : Byte) (s : State) : Result :=
  commandStep (fun t => t.complete (elemsQgray t.params.grayArith r g b)) s

end Sys2Proof.Machine
end

