-- ==== Sys2Proof/Machine/Rgb332.lean ====
section
/-! DEFINITION. RGB332, Q332 (spec 42_rgb332.md). -/

namespace Sys2Proof.Machine

/-- `rgb332(r,g,b) = (Q(r,7) << 5) | (Q(g,7) << 2) | Q(b,3)` (R120; green by R121). -/
def rgb332 (r g b : Byte) : Nat :=
  (chanLevel r.toNat 7 <<< 5) ||| (chanLevel g.toNat 7 <<< 2) ||| chanLevel b.toNat 3

/-- `Elems(Q332(bo,r,g,b)) = [B8(rgb332(r,g,b))]` (R88). -/
def elemsQ332 (r g b : Byte) : List Element := [elemB8 (rgb332 r g b)]

/-- Q332 (R120): one B8 element. bo is read and has no effect (R63). -/
def execQ332 (_bo : ByteOrder) (r g b : Byte) (s : State) : Result :=
  commandStep (fun t => t.complete (elemsQ332 r g b)) s

end Sys2Proof.Machine
end

