-- ==== Sys2Proof/Machine/Rgb565.lean ====
section
/-! DEFINITION. RGB565, Q565 (spec 41_rgb565.md). -/

namespace Sys2Proof.Machine

/-- `rgb565(r,g,b,bo) = (bo = 0) ? pack565(r,g,b) : swap16(pack565(r,g,b))` (R100). -/
def rgb565 (bo : ByteOrder) (r g b : Byte) : Nat :=
  match bo with
  | .little => pack565 r.toNat g.toNat b.toNat
  | .big => swap16 (pack565 r.toNat g.toNat b.toNat)

/-- `Elems(Q565(bo,r,g,b)) = [H16(rgb565(r,g,b,bo))]` (R88). -/
def elemsQ565 (bo : ByteOrder) (r g b : Byte) : List Element := [elemH16 (rgb565 bo r g b)]

/-- Q565 (R100): one H16 element. No flag is written and no operand raises an error. -/
def execQ565 (bo : ByteOrder) (r g b : Byte) (s : State) : Result :=
  commandStep (fun t => t.complete (elemsQ565 bo r g b)) s

end Sys2Proof.Machine
end

