-- ==== Sys2Proof/Machine/Rgb565Split.lean ====
section
/-! DEFINITION. RGB565_8BIT, Q565S: the RGB565 value split into two bytes (spec 44_rgb565_8bit.md). -/

namespace Sys2Proof.Machine

/-- The value that is split (R160, R161): the RGB565 value with its byte order's swap, or, in the named alternative
SPLIT_SWAPS = false, without it. -/
def splitValue (swaps : Bool) (bo : ByteOrder) (r g b : Byte) : Nat :=
  if swaps then rgb565 bo r g b else rgb565 .little r g b

/-- `split565(r,g,b,bo) = [B8(v >> 8), B8(v & 0xFF)]`, high byte first (R88, R160). -/
def elemsQ565s (swaps : Bool) (bo : ByteOrder) (r g b : Byte) : List Element :=
  [elemB8 (splitValue swaps bo r g b >>> 8), elemB8 (splitValue swaps bo r g b &&& 0xFF)]

/-- Q565S (R160): two B8 elements, appended in one step; the pixel is counted once. -/
def execQ565s (bo : ByteOrder) (r g b : Byte) (s : State) : Result :=
  commandStep (fun t => t.complete (elemsQ565s t.params.splitSwaps bo r g b)) s

end Sys2Proof.Machine
end

