-- ==== Sys2Proof/Machine/Dispatch.lean ====
section
/-! DEFINITION. The meaning of every command, one arm per constructor (spec 30_encoding.md R62). -/

namespace Sys2Proof.Machine

/-- The command step (R90) of a legal word, decoded. -/
def exec (i : Instr) (s : State) : Host.Outcome State Fault Refusal :=
  match i with
  | .q565 bo r g b => Sys2Proof.Machine.execQ565 bo r g b s
  | .q332 bo r g b => Sys2Proof.Machine.execQ332 bo r g b s
  | .qgray bo r g b => Sys2Proof.Machine.execQgray bo r g b s
  | .q565s bo r g b => Sys2Proof.Machine.execQ565s bo r g b s

end Sys2Proof.Machine
end

