-- ==== Sys2Proof/Machine/Moves.lean ====
section
/-! DEFINITION. The moves of the agents (spec 20_memory.md R47, R48). -/

namespace Sys2Proof.Machine

/-- The producer's offer meets the block (R90): the word on offer, if there is one, is decoded and its command step
runs. Without an offer no transfer happens (R41) and nothing changes (R195). -/
def commandMove (s : State) : Result :=
  match s.env.cmds with
  | [] => .next s
  | w :: _ =>
    match decode w with
    | .ok i => exec i s
    | .error _ => execIllegal w s

/-- `Take()` (R43), whatever ERR is. Where it is not enabled no transfer happens (log entry 7). -/
def takeMove (s : State) : Result :=
  if s.resetSeen = false then .refused .beforeFirstReset
  else if s.outValid = false then .next s
  else .next s.takeHead

/-- A status read (R27, R29). -/
def readMove (idx : RegIndex) (s : State) : Result :=
  if s.resetSeen = false then .refused .beforeFirstReset else .next (s.recordRead idx)

/-- One move. -/
def runMove (m : Move) (s : State) : Result :=
  match m with
  | .command => commandMove s
  | .take => takeMove s
  | .read idx => readMove idx s
  | .assertReset => .next s.applyReset
  | .releaseReset => .next s.releaseRst

/-- s with another schedule: `step` runs a move with the move itself gone from the schedule. -/
def State.withMoves (s : State) (ms : List Move) : State := { s with env := { s.env with moves := ms } }

/-- One step of the machine: the next move of the schedule, or nothing where no agent moves (R48, R195). -/
def stepMoves (s : State) : Result :=
  match s.env.moves with
  | [] => .next s
  | m :: ms => runMove m (s.withMoves ms)

/-- The producer offers w before its other words, and the next move is that offer. -/
def State.offerNext (s : State) (w : Word) : State :=
  { s with env := { s.env with moves := .command :: s.env.moves, cmds := w :: s.env.cmds } }

end Sys2Proof.Machine
end

