-- ==== Sys2Proof/Machine/Step.lean ====
section
/-! DEFINITION. The step, and where an instruction stands for the next step to run it (log entry 5). -/

namespace Sys2Proof.Machine

/-- One step (spec 20_memory.md R48). -/
def step (s : State) : Host.Outcome State Fault Refusal := stepMoves s

/-- s with the instruction of the opcode table whose bits are w on offer, and its command step next. -/
def State.withFetchWord (s : State) (nbits w : Nat) : State := s.offerNext (wordOfTable nbits w)

end Sys2Proof.Machine
end

