-- ==== Sys2Proof/Machine/Assembler.lean ====
section
/-! DEFINITION. The assembler (spec 30_encoding.md R68, R69): a line of text to a command word. The words are the
normative form; nothing in the machine depends on this file. The lexical choices are log entry 16. -/

namespace Sys2Proof.Machine

/-- What a line asks for: a command of R68 with its operands as written, a `QPIX` of R69, or a `.word`. -/
inductive AsmLine where
  | op (fmt : OutputFormat) (bo : ByteOrder) (r g b : Nat)
  | qpix (fmt : OutputFormat) (bo : ByteOrder) (rgb : Nat)
  | literal (w : Nat)
deriving DecidableEq, Repr

/-- The ranges of R68 and R69: channels in [0,255], a 24-bit `QPIX` literal, a 32-bit `.word`. -/
def asmWellFormed : AsmLine → Bool
  | .op _ _ r g b => decide (r ≤ 255) && decide (g ≤ 255) && decide (b ≤ 255)
  | .qpix _ _ rgb => decide (rgb < 2 ^ 24)
  | .literal w => decide (w < 2 ^ 32)

/-- The word of a line. A value out of range is refused, never truncated (R68). -/
def assembleLine (l : AsmLine) : Option Word :=
  if asmWellFormed l then
    match l with
    | .op fmt bo r g b => some (encodeFields fmt bo (BitVec.ofNat 8 r) (BitVec.ofNat 8 g) (BitVec.ofNat 8 b))
    | .qpix fmt bo rgb =>
      some (encodeFields fmt bo (BitVec.ofNat 8 (rgb / 2 ^ 16)) (BitVec.ofNat 8 (rgb / 2 ^ 8)) (BitVec.ofNat 8 rgb))
    | .literal w => some (BitVec.ofNat 32 w)
  else none

/-- The mnemonics by the kind of line they begin. -/
inductive AsmHead where
  | op (fmt : OutputFormat) (bo : ByteOrder)
  | qpix (fmt : OutputFormat) (bo : ByteOrder)
  | literal
deriving DecidableEq, Repr

/-- The format names of R68. -/
def asmOpNames : List (String × OutputFormat) :=
  [("Q565", .rgb565), ("Q332", .rgb332), ("QGRAY", .gray8), ("Q565S", .rgb565Bytes)]

/-- The format names of `QPIX` (R69). -/
def asmPixNames : List (String × OutputFormat) :=
  [("QPIX.565", .rgb565), ("QPIX.332", .rgb332), ("QPIX.GRAY", .gray8), ("QPIX.565S", .rgb565Bytes)]

/-- The suffixes of R68. -/
def asmSuffixes : List (String × ByteOrder) := [(".LE", .little), (".BE", .big)]

/-- Every mnemonic (R68, R69). Without a suffix a command is Little. -/
def asmHeads : List (List Char × AsmHead) :=
  asmOpNames.map (fun n => (n.1.toList, .op n.2 .little))
    ++ asmOpNames.flatMap (fun n => asmSuffixes.map fun x => (n.1.toList ++ x.1.toList, .op n.2 x.2))
    ++ asmPixNames.flatMap (fun n => asmSuffixes.map fun x => (n.1.toList ++ x.1.toList, .qpix n.2 x.2))
    ++ [(".word".toList, .literal)]

/-- A blank between the parts of a line. -/
def asmSpace (c : Char) : Bool := c == ' ' || c == '\t'

/-- A field without the blanks around it. -/
def asmTrim (cs : List Char) : List Char :=
  ((cs.dropWhile asmSpace).reverse.dropWhile asmSpace).reverse

/-- The fields between commas. -/
def asmCommas : List Char → List (List Char)
  | [] => [[]]
  | c :: cs =>
    if c == ',' then [] :: asmCommas cs
    else match asmCommas cs with
      | [] => [[c]]
      | f :: fs => (c :: f) :: fs

/-- The value of a digit of a base of at most 16. -/
def asmDigit (base : Nat) (c : Char) : Option Nat :=
  let n := c.toNat
  let d :=
    if 48 ≤ n ∧ n ≤ 57 then n - 48
    else if 65 ≤ n ∧ n ≤ 70 then n - 55
    else if 97 ≤ n ∧ n ≤ 102 then n - 87
    else base
  if d < base then some d else none

/-- The value of one or more digits. -/
def asmDigits (base : Nat) (cs : List Char) : Option Nat :=
  if cs.isEmpty then none
  else cs.foldl (fun acc c => acc.bind fun v => (asmDigit base c).map fun d => v * base + d) (some 0)

/-- A decimal or `0x` hexadecimal integer (R68). -/
def asmNumber : List Char → Option Nat
  | '0' :: 'x' :: ds => asmDigits 16 ds
  | ds => asmDigits 10 ds

/-- `0x` and exactly n hexadecimal digits: the literals of `.word` (R68) and `QPIX` (R69). -/
def asmHex (n : Nat) : List Char → Option Nat
  | '0' :: 'x' :: ds => if ds.length = n then asmDigits 16 ds else none
  | _ => none

/-- The operands after a mnemonic. -/
def asmOperands (h : AsmHead) (cs : List Char) : Option AsmLine :=
  match h, (asmCommas cs).map asmTrim with
  | .op fmt bo, [r, g, b] => do
    let r ← asmNumber r
    let g ← asmNumber g
    let b ← asmNumber b
    return .op fmt bo r g b
  | .qpix fmt bo, [x] => (asmHex 6 x).map fun v => .qpix fmt bo v
  | .literal, [x] => (asmHex 8 x).map fun v => .literal v
  | _, _ => none

/-- A line of text (R68): a comment runs from `;` to the end of the line; one command per line. A line with nothing
but a comment is `some none`; a line that is refused is `none`. -/
def asmParse (line : List Char) : Option (Option AsmLine) :=
  match asmTrim (line.takeWhile (· != ';')) with
  | [] => some none
  | cs =>
    match asmHeads.lookup (cs.takeWhile fun c => !asmSpace c) with
    | none => none
    | some h => (asmOperands h (cs.dropWhile fun c => !asmSpace c)).map some

/-- The words of a program text, line by line; none where a line is refused. -/
def assemble : List String → Option (List Word)
  | [] => some []
  | line :: rest =>
    match asmParse line.toList, assemble rest with
    | some none, some ws => some ws
    | some (some l), some ws => (assembleLine l).map (· :: ws)
    | _, _ => none

end Sys2Proof.Machine
end

