-- ==== Sys2Proof/Machine/Elems.lean ====
section
/-! DEFINITION. The element list of a decoded command (spec 40_datapath.md R88), for statements about whole runs. -/

namespace Sys2Proof.Machine

/-- `Elems(c)` (R88). -/
def elems (p : Params) : Instr → List Element
  | .q565 bo r g b => elemsQ565 bo r g b
  | .q332 _ r g b => elemsQ332 r g b
  | .qgray _ r g b => elemsQgray p.grayArith r g b
  | .q565s bo r g b => elemsQ565s p.splitSwaps bo r g b

end Sys2Proof.Machine
end

