-- ==== Sys2Proof/Machine/Ports.lean ====
section
/-! DEFINITION. The ports (spec 20_memory.md R41) that Ops.lean and Flags.lean do not already give: `cmd_ready` is
State.cmdReady, `out_valid` is State.outValid, `err` is State.errOut, `rst` is Env.rst. -/

namespace Sys2Proof.Machine

/-- `cmd_valid`: the producer offers a word (R41). -/
def State.cmdValid (s : State) : Bool := !s.env.cmds.isEmpty

/-- `cmd_data`, while `cmd_valid` = 1 (R41, R44). -/
def State.cmdData (s : State) : Option Word := s.env.cmds.head?

/-- `out_kind`'s code of an element: 0 = B8, 1 = H16 (R41). -/
def Element.kind : Element → BitVec 1
  | .b8 _ => 0#1
  | .h16 _ => 1#1

/-- An element's data on `out_data[15:0]`: a B8's value on bits 7:0 with bits 15:8 at 0 (R46). -/
def Element.data : Element → Half
  | .b8 x => x.setWidth 16
  | .h16 x => x

/-- The element presented on the output channel: the head of OBUF while `out_valid` = 1 (R43). -/
def State.outHead (s : State) : Option Element := if s.outValid then s.block.obuf.head? else none

/-- `out_kind` (R41). While `out_valid` = 0 the spec gives it no value, and neither does the model (log entry 10). -/
def State.outKind (s : State) : Option (BitVec 1) := s.outHead.map Element.kind

/-- `out_data` (R41, R46). While `out_valid` = 0 the spec gives it no value, and neither does the model (log entry
10). -/
def State.outData (s : State) : Option Half := s.outHead.map Element.data

/-- `rd_data = ReadReg(rd_idx)` (R41). -/
def State.rdData (s : State) (rdIdx : RegIndex) : Word := s.block.readReg rdIdx

end Sys2Proof.Machine
end

