-- ==== Sys2Proof/WellFormed.lean ====
section
/-! DEFINITION. The checks on what enters the machine: the reserved bits of a command word (spec 30_encoding.md R64)
and the range of the open parameter (00_scope.md R8). A decoded command needs none: its operand types hold exactly the
values R61 and R63 allow. The ranges of an assembler line (R68) are checked in Machine/Assembler.lean, beside its type. -/

namespace Sys2Proof

/-- RSV = 0, as R64 writes it: `w & 0x1F000000 = 0`. -/
def legalWord (w : Word) : Bool := w &&& 0x1F000000#32 == 0#32

/-- Every constructor's operands are legal at every value (R61, R63, R65). -/
def Instr.wellFormed : Instr → Bool
  | .q565 _ _ _ _ => true
  | .q332 _ _ _ _ => true
  | .qgray _ _ _ _ => true
  | .q565s _ _ _ _ => true

/-- 2 ≤ OUT_DEPTH ≤ 255 (R8). -/
def Params.wf (p : Params) : Bool := decide (2 ≤ p.outDepth) && decide (p.outDepth ≤ 255)

end Sys2Proof
end

