-- ==== Sys2Proof/Safety.lean ====
section
/-! DEFINITION. The terms statements use: the invariant of the machine, when a command completes, and what a run has
produced (spec 10_state.md R24, R25, R30; 20_memory.md R45, R52; 70_reset_and_hazards.md R201, R205). -/

namespace Sys2Proof.Machine

/-- The block's state as the spec keeps it: OBUF within its capacity (R30), and ECODE and ERRWORD as ERR says: 0 while
ERR = 0, else INVALID_CMD and an illegal word (R24, R25). -/
abbrev Block.Wf (p : Params) (b : Block) : Prop :=
  b.obuf.length ≤ p.outDepth ∧
    (b.err = false → b.ecode = 0x00#8 ∧ b.errword = 0x00000000#32) ∧
    (b.err = true → b.ecode = 0x01#8 ∧ legalWord b.errword = false)

/-- The invariant every step keeps: OUT_DEPTH is in its range (R8) and, once a reset has happened, the block is as the
spec keeps it, and in its reset state while `rst` is asserted (R201). Before the first reset the block is unspecified
(R202), so nothing is said of it. -/
abbrev State.Inv (s : State) : Prop :=
  s.params.wf = true ∧
    (s.resetSeen = true → s.block.Wf s.params ∧ (s.env.rst = true → s.block = Block.reset))

/-- The state and the `rst` input under which an offered legal word completes (R26, R89, R90): a reset has happened,
`rst` is deasserted, ERR = 0, and OBUF has two free slots. -/
abbrev State.Completing (s : State) : Prop :=
  s.resetSeen = true ∧ s.env.rst = false ∧ s.block.err = false ∧ 2 ≤ s.params.outDepth - s.block.obuf.length

/-- The elements of a word: those of its command, none for an illegal word (R64, R88). -/
def elemsOfWord (p : Params) (w : Word) : List Element :=
  match decode w with
  | .ok i => elems p i
  | .error _ => []

/-- The words of an accepted sequence that complete, from ERR = 0: those before the first illegal one (R182, R184). -/
def completedWords (ws : List Word) : List Word := ws.takeWhile legalWord

/-- The element sequence of an accepted sequence, from ERR = 0 (R45). -/
def elementStream (p : Params) (ws : List Word) : List Element := (completedWords ws).flatMap (elemsOfWord p)

/-- **Drained** (R52): OBUF is empty and no word is being offered. -/
abbrev State.Drained (s : State) : Prop := s.block.obuf = [] ∧ s.env.cmds = []

/-- The run in which the host offered n words succeeded (R205): ERR = 0 and PIXCNT = n mod 2^32. -/
abbrev State.Succeeded (s : State) (n : Nat) : Prop := s.block.err = false ∧ s.block.pixcnt = BitVec.ofNat 32 n

end Sys2Proof.Machine
end

