-- ==== Sys2Proof/Certificates/Slice0/Obligations.lean ====
section
/-! DEFINITION. The statements for the provers. A statement whose docstring names no log entry rests on the cited rules
alone; m ranges over R80's four values 31, 63, 7 and 3. -/

open Sys2Proof Sys2Proof.Machine

/-! ## Encoding -/

/-- Words written out from R100, R120, R140, R160 and the tables of 95_test_vectors.md decode to the commands they stand
for, and an illegal word is rejected with its reserved bits. -/
def Obligations.DecodeReadsWrittenOutWords : Prop :=
  decode 0x00FF0000#32 = .ok (.q565 .little 255 0 0) ∧
  decode 0x20123456#32 = .ok (.q565 .big 0x12 0x34 0x56) ∧
  decode 0x40C86432#32 = .ok (.q332 .little 200 100 50) ∧
  decode 0x6000FF00#32 = .ok (.q332 .big 0 255 0) ∧
  decode 0x80004818#32 = .ok (.qgray .little 0 72 24) ∧
  decode 0xE0050305#32 = .ok (.q565s .big 5 3 5) ∧
  decode 0x21FFFFFF#32 = .error (.reservedBitsSet 1)

/-- Every command, with every operand at every value, is read back from its word (R60, R61, R66). -/
def Obligations.DecodeAfterEncode : Prop := ∀ i : Instr, decode (encode i) = .ok i

/-- A word that decodes is the word of its command, bit for bit: no two words stand for one command (R60, R66). -/
def Obligations.EncodeAfterDecode : Prop := ∀ (w : Word) (i : Instr), decode w = .ok i → encode i = w

/-- R66: the four rows and the illegal row, as mask and match, each with the decoding R66's pseudocode gives; the rows
of the table are disjoint from one another and from the illegal row, and with it they cover every word. -/
def Obligations.DecoderFollowsTheTable : Prop :=
  ∀ w : Word,
    let bo := if w.getLsbD 29 then ByteOrder.big else ByteOrder.little
    let r := w.extractLsb' 16 8
    let g := w.extractLsb' 8 8
    let b := w.extractLsb' 0 8
    (w &&& 0xDF000000#32 = 0x00000000#32 → decode w = .ok (.q565 bo r g b)) ∧
    (w &&& 0xDF000000#32 = 0x40000000#32 → decode w = .ok (.q332 bo r g b)) ∧
    (w &&& 0xDF000000#32 = 0x80000000#32 → decode w = .ok (.qgray bo r g b)) ∧
    (w &&& 0xDF000000#32 = 0xC0000000#32 → decode w = .ok (.q565s bo r g b)) ∧
    (w &&& 0x1F000000#32 ≠ 0#32 → decode w = .error (.reservedBitsSet (w.extractLsb' 24 5))) ∧
    (∀ x ∈ opcodeTable, ∀ y ∈ opcodeTable, x.hits w = true → y.hits w = true → x = y) ∧
    (w &&& 0x1F000000#32 = 0#32 ↔ ∃ x ∈ opcodeTable, x.hits w = true)

/-- R60: the fields of the word of a command, at their bit positions, with RSV = 0. -/
def Obligations.EncodePlacesEveryField : Prop :=
  ∀ (fmt : OutputFormat) (bo : ByteOrder) (r g b : Byte),
    let w := encode (instrOf fmt bo r g b)
    w.extractLsb' 30 2 = codeOfFormat fmt ∧ w.extractLsb' 29 1 = bitOfByteOrder bo ∧ w.extractLsb' 24 5 = 0#5 ∧
    w.extractLsb' 16 8 = r ∧ w.extractLsb' 8 8 = g ∧ w.extractLsb' 0 8 = b

/-- R68, R69: with every operand in range a line assembles to its word: a command line to the word with those fields, a
`QPIX` line to the word whose R, G and B are the three bytes of the 24-bit literal, high byte red, a `.word` line to the
literal. With an operand out of range the line is refused, never truncated. A command without a suffix is Little, and
every `QPIX` names its format and byte order. -/
def Obligations.AssemblerNeverTruncates : Prop :=
  (∀ (fmt : OutputFormat) (bo : ByteOrder) (r g b : Nat),
    (r ≤ 255 → g ≤ 255 → b ≤ 255 →
      ∃ w, assembleLine (.op fmt bo r g b) = some w ∧ fieldFmt w = codeOfFormat fmt ∧ fieldBo w = bitOfByteOrder bo ∧
        fieldRsv w = 0#5 ∧ (fieldR w).toNat = r ∧ (fieldG w).toNat = g ∧ (fieldB w).toNat = b) ∧
    (255 < r ∨ 255 < g ∨ 255 < b → assembleLine (.op fmt bo r g b) = none)) ∧
  (∀ (fmt : OutputFormat) (bo : ByteOrder) (rgb : Nat),
    (rgb < 2 ^ 24 →
      ∃ w, assembleLine (.qpix fmt bo rgb) = some w ∧ fieldFmt w = codeOfFormat fmt ∧ fieldBo w = bitOfByteOrder bo ∧
        fieldRsv w = 0#5 ∧
        rgb = (fieldR w).toNat * 2 ^ 16 + (fieldG w).toNat * 2 ^ 8 + (fieldB w).toNat) ∧
    (2 ^ 24 ≤ rgb → assembleLine (.qpix fmt bo rgb) = none)) ∧
  (∀ n : Nat,
    (n < 2 ^ 32 → ∃ w, assembleLine (.literal n) = some w ∧ w.toNat = n) ∧
    (2 ^ 32 ≤ n → assembleLine (.literal n) = none)) ∧
  asmHeads.lookup "Q565".toList = some (.op .rgb565 .little) ∧
  asmHeads.lookup "Q332".toList = some (.op .rgb332 .little) ∧
  asmHeads.lookup "QGRAY".toList = some (.op .gray8 .little) ∧
  asmHeads.lookup "Q565S".toList = some (.op .rgb565Bytes .little) ∧
  (∀ n ∈ [("565", OutputFormat.rgb565), ("332", .rgb332), ("GRAY", .gray8), ("565S", .rgb565Bytes)],
    asmHeads.lookup ("QPIX.".toList ++ n.1.toList ++ ".LE".toList) = some (.qpix n.2 .little) ∧
    asmHeads.lookup ("QPIX.".toList ++ n.1.toList ++ ".BE".toList) = some (.qpix n.2 .big)) ∧
  asmHeads.lookup ".word".toList = some .literal

/-! ## The datapath -/

/-- R81: the laws of Q. -/
def Obligations.LevelLaws : Prop :=
  ∀ m ∈ [31, 63, 7, 3],
    (∀ v, v ≤ 255 → chanLevel v m ≤ m) ∧ chanLevel 0 m = 0 ∧ chanLevel 255 m = m ∧
    (∀ v v', v ≤ v' → chanLevel v m ≤ chanLevel v' m) ∧
    (∀ k, k ≤ m → ∃ v, v ≤ 255 ∧ chanLevel v m = k)

/-- R82: Q is the nearest integer to the quotient v*m/255, which is never halfway between two integers. -/
def Obligations.LevelIsTheNearestInteger : Prop :=
  ∀ m ∈ [31, 63, 7, 3], ∀ v : Nat, v ≤ 255 →
    ((chanLevel v m : ℤ) = ⌊((v * m : ℕ) : ℚ) / 255 + 1 / 2⌋) ∧
    ((chanLevel v m : ℤ) = round (((v * m : ℕ) : ℚ) / 255)) ∧
    (∀ k : ℤ, ((v * m : ℕ) : ℚ) / 255 ≠ (k : ℚ) + 1 / 2)

/-- R85: the smallest input of each level. Level k is given exactly by the inputs from its threshold up to one below
the next threshold. -/
def Obligations.LevelThresholds : Prop :=
  ∀ mt ∈
    [(31, [0, 5, 13, 21, 29, 38, 46, 54, 62, 70, 79, 87, 95, 103, 112, 120, 128, 136, 144, 153, 161, 169, 177, 186,
        194, 202, 210, 218, 227, 235, 243, 251]),
     (63, [0, 3, 7, 11, 15, 19, 23, 27, 31, 35, 39, 43, 47, 51, 55, 59, 63, 67, 71, 75, 79, 83, 88, 92, 96, 100, 104,
        108, 112, 116, 120, 124, 128, 132, 136, 140, 144, 148, 152, 156, 160, 164, 168, 173, 177, 181, 185, 189, 193,
        197, 201, 205, 209, 213, 217, 221, 225, 229, 233, 237, 241, 245, 249, 253]),
     (7, [0, 19, 55, 92, 128, 164, 201, 237]),
     (3, [0, 43, 128, 213])],
    mt.2.length = mt.1 + 1 ∧
    ∀ v < 256, ∀ k ≤ mt.1, chanLevel v mt.1 = k ↔ (mt.2 ++ [256]).getD k 0 ≤ v ∧ v < (mt.2 ++ [256]).getD (k + 1) 0

/-- R83: swap16 exchanges the two bytes of a 16-bit value. -/
def Obligations.SwapExchangesTheBytes : Prop :=
  ∀ v, v ≤ 0xFFFF →
    swap16 v = ((v &&& 0xFF) <<< 8) ||| (v >>> 8) ∧ swap16 v ≤ 0xFFFF ∧ swap16 (swap16 v) = v ∧
    swap16 v / 256 = v % 256 ∧ swap16 v % 256 = v / 256

/-- R84: the packer's formula, its field layout, and that it fits 16 bits and adds as it joins. -/
def Obligations.Pack565FieldLayout : Prop :=
  ∀ r g b, r ≤ 255 → g ≤ 255 → b ≤ 255 →
    let v := pack565 r g b
    let r5 := (r * 31 + 127) / 255
    let g6 := (g * 63 + 127) / 255
    let b5 := (b * 31 + 127) / 255
    v = (r5 <<< 11) ||| (g6 <<< 5) ||| b5 ∧ v = r5 * 2 ^ 11 + g6 * 2 ^ 5 + b5 ∧ v ≤ 0xFFFF ∧
    v / 2 ^ 11 = r5 ∧ v / 2 ^ 5 % 2 ^ 6 = g6 ∧ v % 2 ^ 5 = b5

/-- R87: the error of the exact rational expansion of a level. -/
def Obligations.LevelRoundTripBound : Prop :=
  ∀ m ∈ [31, 63, 7, 3], ∀ v : Nat, v ≤ 255 →
    |(v : ℚ) - (chanLevel v m : ℚ) * 255 / (m : ℚ)| ≤ 255 / (2 * (m : ℚ))

/-- R101: the byte-order law of RGB565, both ways. -/
def Obligations.ByteOrderLawOfRgb565 : Prop :=
  ∀ r g b : Byte, rgb565 .big r g b = swap16 (rgb565 .little r g b) ∧ rgb565 .little r g b = swap16 (rgb565 .big r g b)

/-- R103: where the levels stand in the Little and in the Big value, and that both fit 16 bits. -/
def Obligations.Rgb565FieldPositions : Prop :=
  ∀ r g b : Byte,
    let lit := rgb565 .little r g b
    let big := rgb565 .big r g b
    let r5 := chanLevel r.toNat 31
    let g6 := chanLevel g.toNat 63
    let b5 := chanLevel b.toNat 31
    lit < 2 ^ 16 ∧ lit / 2 ^ 11 = r5 ∧ lit / 2 ^ 5 % 2 ^ 6 = g6 ∧ lit % 2 ^ 5 = b5 ∧
    big < 2 ^ 16 ∧ big / 2 ^ 8 = lit % 2 ^ 8 ∧ big % 2 ^ 8 = lit / 2 ^ 8 ∧
    big / 2 ^ 13 = g6 % 2 ^ 3 ∧ big % 2 ^ 3 = g6 / 2 ^ 3 ∧ big / 2 ^ 8 % 2 ^ 5 = b5 ∧ big / 2 ^ 3 % 2 ^ 5 = r5

/-- R120: the field layout of RGB332 and that it fits a byte. -/
def Obligations.Rgb332FieldLayout : Prop :=
  ∀ r g b : Byte,
    let v := rgb332 r g b
    v ≤ 0xFF ∧ v / 2 ^ 5 = (r.toNat * 7 + 127) / 255 ∧ v / 2 ^ 2 % 2 ^ 3 = (g.toNat * 7 + 127) / 255 ∧
    v % 2 ^ 2 = (b.toNat * 3 + 127) / 255

/-- R141, R142: in the block's EXACT arithmetic the sum fits 18 bits and the clamp never changes a value; a gray input
k,k,k gives k (R140). -/
def Obligations.GrayClampIsNeverActive : Prop :=
  ∀ r g b : Byte,
    graySum r g b ≤ 255000 ∧ 255000 < 2 ^ 18 ∧ grayLuma .exact r g b ≤ 255 ∧
    gray8 .exact r g b = (299 * r.toNat + 587 * g.toNat + 114 * b.toNat) / 1000 ∧ gray8 .exact r r r = r.toNat

/-- R143: BINARY64 differs from EXACT only where the exact sum is a multiple of 1000, and there it is the same or
exactly 1 less; R143's examples. The model's integer rendering of binary64 is log entry 3. -/
def Obligations.Binary64DiffersOnlyAtMultiples : Prop :=
  (∀ r g b : Byte,
    gray8 .binary64 r g b = gray8 .exact r g b ∨
      (graySum r g b % 1000 = 0 ∧ gray8 .binary64 r g b + 1 = gray8 .exact r g b)) ∧
  gray8 .binary64 1 1 1 = 0 ∧ gray8 .exact 1 1 1 = 1 ∧ gray8 .binary64 128 128 128 = 127 ∧
  gray8 .exact 128 128 128 = 128 ∧ gray8 .binary64 0 72 24 = 44 ∧ gray8 .exact 0 72 24 = 45 ∧
  gray8 .binary64 0 0 0 = 0 ∧ gray8 .binary64 255 255 255 = 255

/-- R162 (a) and (b), for the block's SPLIT_SWAPS = true: the pair joined is the Q565 value of the same order, and the
Big pair is the Little pair reversed. -/
def Obligations.SplitPairLaws : Prop :=
  ∀ (r g b : Byte),
    (∀ bo, ∃ hi lo : Byte, elemsQ565s true bo r g b = [.b8 hi, .b8 lo] ∧
      elemsQ565 bo r g b = [.h16 (hi ++ lo)] ∧ hi.toNat * 256 + lo.toNat = rgb565 bo r g b) ∧
    elemsQ565s true .big r g b = (elemsQ565s true .little r g b).reverse

/-- The source's vectors: R102 (both byte orders for black and white), R122 with the other two primaries, and R144 with
its corrected array. -/
def Obligations.SourceVectors : Prop :=
  (∀ bo, elemsQ565 bo 0 0 0 = [.h16 0x0000] ∧ elemsQ565 bo 255 255 255 = [.h16 0xFFFF]) ∧
  elemsQ565 .little 255 0 0 = [.h16 0xF800] ∧
  elemsQ332 255 0 0 = [.b8 0xE0] ∧ elemsQ332 0 255 0 = [.b8 0x1C] ∧ elemsQ332 0 0 255 = [.b8 0x03] ∧
  elemsQgray .exact 255 255 255 = [.b8 255] ∧ elemsQgray .exact 0 0 0 = [.b8 0] ∧
  elemsQgray .exact 255 0 0 ++ elemsQgray .exact 0 255 0 ++ elemsQgray .exact 0 0 255 ++ elemsQgray .exact 255 255 255 =
    [.b8 0x4C, .b8 0x95, .b8 0x1D, .b8 0xFF]

/-! ## The commands: completion, result and frame. The next state is written whole, so what it does not name is
unchanged: ERR, ECODE, ERRWORD, the elements already in OBUF, the parameters and the agents' records. -/

/-- R100: Q565 completes, appends its one H16 element and counts its pixel; its word; its worked example. -/
def Obligations.Q565Completes : Prop :=
  (∀ (bo : ByteOrder) (r g b : Byte) (s : State), s.Completing →
    let r5 := (r.toNat * 31 + 127) / 255
    let g6 := (g.toNat * 63 + 127) / 255
    let b5 := (b.toNat * 31 + 127) / 255
    let v := (r5 <<< 11) ||| (g6 <<< 5) ||| b5
    let x := match bo with
      | .little => v
      | .big => ((v &&& 0xFF) <<< 8) ||| (v >>> 8)
    x < 2 ^ 16 ∧
    exec (.q565 bo r g b) s =
      .next { s with
        block := { s.block with
          obuf := s.block.obuf ++ [.h16 (BitVec.ofNat 16 x)]
          pixcnt := s.block.pixcnt + 1 }
        env := { s.env with cmds := s.env.cmds.tail } }) ∧
  (∀ (bo : ByteOrder) (r g b : Byte),
    (encode (.q565 bo r g b)).toNat =
      (bitOfByteOrder bo).toNat * 2 ^ 29 + r.toNat * 2 ^ 16 + g.toNat * 2 ^ 8 + b.toNat) ∧
  encode (.q565 .little 255 0 0) = 0x00FF0000#32 ∧ encode (.q565 .big 255 0 0) = 0x20FF0000#32 ∧
  (∀ s : State, s.Completing →
    (∃ t, exec (.q565 .little 255 0 0) s = .next t ∧ t.block.obuf = s.block.obuf ++ [.h16 0xF800#16]) ∧
    (∃ t, exec (.q565 .big 255 0 0) s = .next t ∧ t.block.obuf = s.block.obuf ++ [.h16 0x00F8#16]))

/-- R120 (green by R121): Q332 completes, appends its one B8 element and counts its pixel; its word. -/
def Obligations.Q332Completes : Prop :=
  (∀ (bo : ByteOrder) (r g b : Byte) (s : State), s.Completing →
    let r3 := (r.toNat * 7 + 127) / 255
    let g3 := (g.toNat * 7 + 127) / 255
    let b2 := (b.toNat * 3 + 127) / 255
    let v := (r3 <<< 5) ||| (g3 <<< 2) ||| b2
    v < 2 ^ 8 ∧
    exec (.q332 bo r g b) s =
      .next { s with
        block := { s.block with
          obuf := s.block.obuf ++ [.b8 (BitVec.ofNat 8 v)]
          pixcnt := s.block.pixcnt + 1 }
        env := { s.env with cmds := s.env.cmds.tail } }) ∧
  (∀ (bo : ByteOrder) (r g b : Byte),
    (encode (.q332 bo r g b)).toNat =
      0x40000000 + (bitOfByteOrder bo).toNat * 2 ^ 29 + r.toNat * 2 ^ 16 + g.toNat * 2 ^ 8 + b.toNat)

/-- R140: QGRAY in the block's EXACT arithmetic completes, appends its one B8 element and counts its pixel; its word. -/
def Obligations.QgrayCompletes : Prop :=
  (∀ (bo : ByteOrder) (r g b : Byte) (s : State), s.Completing → s.params.grayArith = .exact →
    let x := min ((299 * r.toNat + 587 * g.toNat + 114 * b.toNat) / 1000) 255
    exec (.qgray bo r g b) s =
      .next { s with
        block := { s.block with
          obuf := s.block.obuf ++ [.b8 (BitVec.ofNat 8 x)]
          pixcnt := s.block.pixcnt + 1 }
        env := { s.env with cmds := s.env.cmds.tail } }) ∧
  (∀ (bo : ByteOrder) (r g b : Byte),
    (encode (.qgray bo r g b)).toNat =
      0x80000000 + (bitOfByteOrder bo).toNat * 2 ^ 29 + r.toNat * 2 ^ 16 + g.toNat * 2 ^ 8 + b.toNat)

/-- R143: in the named alternative BINARY64 QGRAY completes with the truncated sum of the rounded products, clamped
(log entries 2 and 3). -/
def Obligations.QgrayBinary64Completes : Prop :=
  ∀ (bo : ByteOrder) (r g b : Byte) (s : State), s.Completing → s.params.grayArith = .binary64 →
    let fl := roundBinary64
    let sum := fl (fl (fl (weightR * r.toNat) + fl (weightG * g.toNat)) + fl (weightB * b.toNat))
    exec (.qgray bo r g b) s =
      .next { s with
        block := { s.block with
          obuf := s.block.obuf ++ [.b8 (BitVec.ofNat 8 (min (sum / 2 ^ 56) 255))]
          pixcnt := s.block.pixcnt + 1 }
        env := { s.env with cmds := s.env.cmds.tail } }

/-- R160: Q565S in the block's reading (SPLIT_SWAPS = true) completes, appends the high byte and then the low byte of
the RGB565 value in one step, and counts its pixel once; its word. -/
def Obligations.Q565sCompletes : Prop :=
  (∀ (bo : ByteOrder) (r g b : Byte) (s : State), s.Completing → s.params.splitSwaps = true →
    let v := rgb565 bo r g b
    v < 2 ^ 16 ∧
    exec (.q565s bo r g b) s =
      .next { s with
        block := { s.block with
          obuf := s.block.obuf ++ [.b8 (BitVec.ofNat 8 (v >>> 8)), .b8 (BitVec.ofNat 8 (v &&& 0xFF))]
          pixcnt := s.block.pixcnt + 1 }
        env := { s.env with cmds := s.env.cmds.tail } }) ∧
  (∀ (bo : ByteOrder) (r g b : Byte),
    (encode (.q565s bo r g b)).toNat =
      0xC0000000 + (bitOfByteOrder bo).toNat * 2 ^ 29 + r.toNat * 2 ^ 16 + g.toNat * 2 ^ 8 + b.toNat)

/-- D7, R161: in the named alternative SPLIT_SWAPS = false Q565S completes with the bytes of the unswapped value,
whatever BO is (log entry 2). -/
def Obligations.Q565sWithoutSwapCompletes : Prop :=
  ∀ (bo : ByteOrder) (r g b : Byte) (s : State), s.Completing → s.params.splitSwaps = false →
    let v := pack565 r.toNat g.toNat b.toNat
    exec (.q565s bo r g b) s =
      .next { s with
        block := { s.block with
          obuf := s.block.obuf ++ [.b8 (BitVec.ofNat 8 (v >>> 8)), .b8 (BitVec.ofNat 8 (v &&& 0xFF))]
          pixcnt := s.block.pixcnt + 1 }
        env := { s.env with cmds := s.env.cmds.tail } }

/-- R63: BO is read and has no effect for Q332 and QGRAY, in every state. -/
def Obligations.ByteOrderIgnoredByOneByteFormats : Prop :=
  ∀ (r g b : Byte) (s : State),
    exec (.q332 .little r g b) s = exec (.q332 .big r g b) s ∧ exec (.qgray .little r g b) s = exec (.qgray .big r g b) s

/-- R88: a command that completes appends Elems(c), which has 1 element for FMT 0, 1 and 2 and 2 for FMT 3. -/
def Obligations.CompletedCommandAppendsItsElements : Prop :=
  ∀ (i : Instr) (s : State), s.Completing →
    ∃ t, exec i s = .next t ∧ t.block.obuf = s.block.obuf ++ elems s.params i ∧
      (elems s.params i).length = (if i.format = .rgb565Bytes then 2 else 1)

/-- R89, R184, R201, R202: what the command step of a legal word does where the word does not complete. Before the
first reset it is refused; with `rst` asserted, or with fewer than 2 free slots while ERR = 0, nothing changes and the
word stays on offer (log entry 6); while ERR = 1 the word is consumed and discarded. -/
def Obligations.CommandThatDoesNotComplete : Prop :=
  ∀ (i : Instr) (s : State), ¬ s.Completing →
    exec i s =
      if s.resetSeen = false then .refused .beforeFirstReset
      else if s.env.rst = true then .next s
      else if s.block.err = true then .next { s with env := { s.env with cmds := s.env.cmds.tail } }
      else .next s

/-- R91: two completed words of one command append equal element lists, whatever the two states are (the parameters
equal: one block). -/
def Obligations.ElementsDependOnTheFieldsAlone : Prop :=
  ∀ (i : Instr) (s s' t t' : State), s.params = s'.params → s.Completing → s'.Completing →
    exec i s = .next t → exec i s' = .next t' →
    ∃ es, t.block.obuf = s.block.obuf ++ es ∧ t'.block.obuf = s'.block.obuf ++ es

/-! ## The step -/

/-- A step whose move is a command step runs the command the word on offer decodes to; the move leaves the schedule. -/
def Obligations.StepRunsTheDecodedCommand : Prop :=
  ∀ (s : State) (ms : List Move) (w : Word) (ws : List Word) (i : Instr),
    s.env.moves = .command :: ms → s.env.cmds = w :: ws → decode w = .ok i →
    step s = exec i { s with env := { s.env with moves := ms } }

/-- Any command, placed by withFetchWord, is what the next step runs, in every state (log entry 5). -/
def Obligations.PlacedWordRunsNext : Prop :=
  ∀ (s : State) (i : Instr),
    decodeTableWord 32 (encode i).toNat = some i ∧
    step (s.withFetchWord 32 (encode i).toNat) = exec i { s with env := { s.env with cmds := encode i :: s.env.cmds } }

/-- R195: without a step no state of the block changes. That a step of the model with no move to come answers the same
state is the model's choice (log entry 4); that a command move with no word on offer uses up only itself is inferred
from R41 and R195 (log entry 7). -/
def Obligations.NoOfferNoChange : Prop :=
  ∀ s : State,
    (s.env.moves = [] → step s = .next s) ∧
    (∀ ms, s.env.moves = .command :: ms → s.env.cmds = [] → step s = .next { s with env := { s.env with moves := ms } })

/-- R89: `cmd_ready` is 1 exactly when `rst` is deasserted and ERR = 1 or two slots are free; it does not depend on the
words offered, and OUT_DEPTH ≥ 2 makes the empty buffer ready. -/
def Obligations.ReadyExactlyWhenTwoSlotsOrError : Prop :=
  ∀ s : State,
    (s.cmdReady = true ↔
      s.env.rst = false ∧ (s.block.err = true ∨ 2 ≤ s.params.outDepth - s.block.obuf.length)) ∧
    (∀ ws, ({ s with env := { s.env with cmds := ws } } : State).cmdReady = s.cmdReady) ∧
    (s.params.wf = true → s.env.rst = false → s.block.obuf = [] → s.cmdReady = true)

/-- R64, R89: an offer, legal or illegal, is held while ERR = 0 and OBUF has fewer than 2 free slots: only the move is
used up, and the word stays on offer (log entry 6). -/
def Obligations.OfferIsHeldWithoutRoom : Prop :=
  ∀ (s : State) (ms : List Move) (w : Word) (ws : List Word),
    s.env.moves = .command :: ms → s.env.cmds = w :: ws → s.resetSeen = true → s.block.err = false →
    s.params.outDepth - s.block.obuf.length < 2 →
    s.cmdReady = false ∧ step s = .next { s with env := { s.env with moves := ms } }

/-- R206 (a), R89: in a state that meets the invariant, as many takes as OBUF holds elements lift every hold: the same
word, legal or illegal, is then accepted. A legal word completes (R90); an illegal one takes the error (R182), with OBUF
left empty by the takes. -/
def Obligations.TakesLiftTheHold : Prop :=
  ∀ (s : State) (ms : List Move) (w : Word) (ws : List Word),
    s.Inv → s.resetSeen = true → s.env.rst = false → s.block.err = false →
    s.env.moves = List.replicate s.block.obuf.length .take ++ .command :: ms → s.env.cmds = w :: ws →
    Host.Core.run Sys2Proof.core (s.block.obuf.length + 1) s =
      .next { s with
        block :=
          if legalWord w = true then
            { s.block with obuf := elemsOfWord s.params w, pixcnt := s.block.pixcnt + 1 }
          else
            { s.block with obuf := [], err := true, ecode := 0x01#8, errword := w }
        env := { s.env with moves := ms, cmds := ws, taken := s.env.taken ++ s.block.obuf } }

/-! ## Errors -/

/-- R182: the error entry. An illegal word accepted while ERR = 0 sets ERR, ECODE and ERRWORD; OBUF and PIXCNT are
unchanged, no element is emitted, and the `err` output rises (R188). -/
def Obligations.IllegalWordTakesTheError : Prop :=
  ∀ (s : State) (ms : List Move) (w : Word) (ws : List Word),
    s.Completing → s.env.moves = .command :: ms → s.env.cmds = w :: ws → w &&& 0x1F000000#32 ≠ 0#32 →
    ∃ t, step s = .next t ∧ t.errOut = true ∧
      t = { s with
        block := { s.block with err := true, ecode := 0x01#8, errword := w }
        env := { s.env with moves := ms, cmds := ws } }

/-- R184: while ERR = 1 the block is ready, and every offered word, legal or illegal, is accepted and discarded with no
change of the block's state; only reset leaves the terminal state. -/
def Obligations.TerminalStateDiscardsEveryWord : Prop :=
  (∀ (s : State) (ms : List Move) (w : Word) (ws : List Word),
    s.resetSeen = true → s.env.rst = false → s.block.err = true → s.env.moves = .command :: ms → s.env.cmds = w :: ws →
    s.cmdReady = true ∧ step s = .next { s with env := { s.env with moves := ms, cmds := ws } }) ∧
  (∀ s t : State, s.block.err = true → step s = .next t →
    (t.block.err = true ∧ t.block.ecode = s.block.ecode ∧ t.block.errword = s.block.errword ∧
      t.block.pixcnt = s.block.pixcnt) ∨
    ∃ ms, s.env.moves = .assertReset :: ms)

/-- R23, R182: ERR is set by the error entry and by nothing else: in a step that sets it, an illegal word was on offer
and the block was ready with room for two elements. -/
def Obligations.OnlyAnIllegalWordSetsErr : Prop :=
  ∀ s t : State, s.block.err = false → step s = .next t → t.block.err = true →
    ∃ ms w ws, s.env.moves = .command :: ms ∧ s.env.cmds = w :: ws ∧ legalWord w = false ∧ s.Completing ∧
      t.block = { s.block with err := true, ecode := 0x01#8, errword := w }

/-- R26: PIXCNT changes only by a completed word, which adds 1 modulo 2^32, and by the reset step, which clears it. -/
def Obligations.PixcntCountsCompletedWordsOnly : Prop :=
  ∀ s t : State, step s = .next t →
    t.block.pixcnt = s.block.pixcnt ∨
    ((∃ ms, s.env.moves = .assertReset :: ms) ∧ t.block.pixcnt = 0#32) ∨
    (∃ ms w ws, s.env.moves = .command :: ms ∧ s.env.cmds = w :: ws ∧ legalWord w = true ∧ s.Completing ∧
      t.block.pixcnt.toNat = (s.block.pixcnt.toNat + 1) % 2 ^ 32)

/-- R42, R43, R50, R183, R200: the only ways OBUF changes in a step: a completed word appends ALL its elements at the tail
(never one byte of a pair), a Take removes the head, a reset empties it. -/
def Obligations.ObufChangesOnlyWhole : Prop :=
  ∀ s t : State, step s = .next t →
    t.block.obuf = s.block.obuf ∨
    ((∃ ms, s.env.moves = .assertReset :: ms) ∧ t.block.obuf = []) ∨
    ((∃ ms, s.env.moves = .take :: ms) ∧ ∃ e, s.block.obuf = e :: t.block.obuf ∧ t.env.taken = s.env.taken ++ [e]) ∨
    (∃ ms w ws i, s.env.moves = .command :: ms ∧ s.env.cmds = w :: ws ∧ decode w = .ok i ∧
      t.block.obuf = s.block.obuf ++ elems s.params i)

/-! ## The consumer, the status reader and the reset source -/

/-- R43: Take is enabled exactly when OBUF is not empty and `rst` is deasserted, whatever ERR is; it delivers the head,
which the output ports present, and changes nothing else. Where it is not enabled nothing changes (log entry 7). -/
def Obligations.TakeDeliversTheHead : Prop :=
  ∀ (s : State) (ms : List Move), s.resetSeen = true → s.env.moves = .take :: ms →
    (s.outValid = true ↔ 0 < s.block.obuf.length ∧ s.env.rst = false) ∧
    (s.outValid = false → step s = .next { s with env := { s.env with moves := ms } }) ∧
    (∀ e rest, s.block.obuf = e :: rest → s.env.rst = false →
      s.outValid = true ∧ s.outKind = some e.kind ∧ s.outData = some e.data ∧
      step s = .next { s with
        block := { s.block with obuf := rest }
        env := { s.env with moves := ms, taken := s.env.taken ++ [e] } })

/-- R46: an H16 element carries its value on `out_data[15:0]`, a B8 element its value on bits 7:0 with bits 15:8 at 0;
`out_kind` is 0 for B8 and 1 for H16 (R41). -/
def Obligations.OutputDataOfAnElement : Prop :=
  (∀ x : Byte, (Element.b8 x).kind = 0#1 ∧ (Element.b8 x).data.toNat = x.toNat ∧
    (Element.b8 x).data.extractLsb' 8 8 = 0#8 ∧ (Element.b8 x).data.extractLsb' 0 8 = x) ∧
  (∀ v : Half, (Element.h16 v).kind = 1#1 ∧ (Element.h16 v).data = v)

/-- R27 (which index gives which register), R29: a status read returns ReadReg of its index and changes no state of the
block; the reader has the value (log entry 11). It holds while `rst` is asserted too, which the spec does not say and
the model infers from R201 (log entry 8). -/
def Obligations.StatusReadReturnsTheRegister : Prop :=
  ∀ (s : State) (idx : RegIndex) (ms : List Move), s.resetSeen = true → s.env.moves = .read idx :: ms →
    step s =
      .next { s with
        env := { s.env with
          moves := ms
          reads := s.env.reads ++ [(idx,
            if idx = 0 then s.block.status else if idx = 1 then s.block.pixcnt
            else if idx = 2 then s.block.errword else 0#32)] } }

/-- R28: the fields of STATUS, its reserved bits, its formula while OBUF is within an 8-bit count, and its reset value. -/
def Obligations.StatusLayout : Prop :=
  Block.reset.status = 0x00000000#32 ∧
  ∀ b : Block,
    b.status.getLsbD 0 = b.err ∧ b.status.extractLsb' 1 7 = 0#7 ∧ b.status.extractLsb' 8 8 = b.ecode ∧
    b.status.extractLsb' 24 8 = 0#8 ∧
    (b.obuf.length ≤ 255 →
      (b.status.extractLsb' 16 8).toNat = b.obuf.length ∧
      b.status.toNat = (b.obuf.length <<< 16) ||| (b.ecode.toNat <<< 8) ||| b.err.toNat)

/-- R200: the reset step, from any state, before or after the first reset, and it is the only step that clears ERR. The
words on offer stay on offer. The model's own part: `rst` is left asserted (log entry 8), resetSeen is set (log entry 9),
the agents' records stay (log entry 11), and so do the parameters (log entries 1 and 2). -/
def Obligations.ResetStepClearsTheBlock : Prop :=
  (∀ (s : State) (ms : List Move), s.env.moves = .assertReset :: ms →
    step s =
      .next { s with
        resetSeen := true
        block := { err := false, ecode := 0x00#8, errword := 0x00000000#32, pixcnt := 0x00000000#32, obuf := [] }
        env := { s.env with moves := ms, rst := true } }) ∧
  (∀ s t : State, s.block.err = true → step s = .next t → t.block.err = false → ∃ ms, s.env.moves = .assertReset :: ms)

/-- R201: while `rst` is asserted `cmd_ready` and `out_valid` are 0, no command step or Take happens, and every step
leaves the block in its reset state, ready once `rst` is deasserted; a reset step and the release of `rst` bring any
state there (log entry 8). -/
def Obligations.HeldInResetUntilReleased : Prop :=
  (∀ (s : State), s.resetSeen = true → s.env.rst = true →
    s.cmdReady = false ∧ s.outValid = false ∧
    (∀ ms, s.env.moves = .command :: ms ∨ s.env.moves = .take :: ms →
      step s = .next { s with env := { s.env with moves := ms } })) ∧
  (∀ s t : State, s.params.wf = true → s.env.rst = true → s.block = Block.reset → step s = .next t →
    t.block = Block.reset ∧ (t.env.rst = false → t.cmdReady = true)) ∧
  (∀ (s : State) (ms : List Move), s.params.wf = true → s.env.moves = .assertReset :: .releaseReset :: ms →
    ∃ t, Host.Core.run Sys2Proof.core 2 s = .next t ∧ t.block = Block.reset ∧ t.env.rst = false ∧ t.env.moves = ms ∧
      t.env.cmds = s.env.cmds ∧ t.cmdReady = true ∧ t.block.status = 0x00000000#32)

/-- R33: the value of every piece of the block's state after reset, STATUS and the `err` output. -/
def Obligations.ResetValues : Prop :=
  State.reset.block.err = false ∧ State.reset.block.ecode = 0x00#8 ∧ State.reset.block.errword = 0x00000000#32 ∧
  State.reset.block.pixcnt = 0x00000000#32 ∧ State.reset.block.obuf = [] ∧ State.reset.block.status = 0x00000000#32 ∧
  State.reset.errOut = false

/-- R202: a command step, a Take or a status read placed before the first reset is refused, as having no meaning. -/
def Obligations.NothingRunsBeforeTheFirstReset : Prop :=
  ∀ (s : State) (ms : List Move), s.resetSeen = false →
    (s.env.moves = .command :: ms ∧ s.env.cmds ≠ [] ∨ s.env.moves = .take :: ms ∨ (∃ idx, s.env.moves = .read idx :: ms)) →
    step s = .refused .beforeFirstReset

/-! ## Invariants and runs -/

/-- The invariant holds after reset, at every capacity R8 allows. -/
def Obligations.ResetMeetsTheInvariant : Prop :=
  State.reset.Inv ∧ ∀ p : Params, p.wf = true → (State.resetWith p).Inv

/-- Every step keeps the invariant: OBUF within OUT_DEPTH (R30, R42), ECODE and ERRWORD as ERR says (R24, R25), the block
in its reset state while `rst` is asserted (R201). -/
def Obligations.EveryStepKeepsTheInvariant : Prop :=
  ∀ s t : State, s.Inv → step s = .next t → t.Inv

/-- R8, R22: the parameters are no state: no step changes them (log entries 1 and 2). -/
def Obligations.NoStepChangesTheParameters : Prop :=
  ∀ s t : State, step s = .next t → t.params = s.params

/-- R22: what the consumer has taken and what the reader has read are no state of the block: with other records the same
step happens, and it leaves the block, the words on offer and the schedule the same (log entry 11). -/
def Obligations.RecordsDoNotReachTheBlock : Prop :=
  ∀ (s t : State) (taken : List Element) (reads : List (RegIndex × Word)), step s = .next t →
    ∃ t', step { s with env := { s.env with taken := taken, reads := reads } } = .next t' ∧
      t'.block = t.block ∧ t'.params = t.params ∧ t'.resetSeen = t.resetSeen ∧ t'.env.rst = t.env.rst ∧
      t'.env.moves = t.env.moves ∧ t'.env.cmds = t.env.cmds

/-- R45: over any number of steps without a reset, from any state with ERR = 0, the elements the consumer has taken and
those still in OBUF are those of before followed by the concatenation, in acceptance order, of the element lists of the
completed words; PIXCNT has counted them (R26), and ERR is set exactly if an illegal word was accepted, ERRWORD being
the first one (R182, R186). -/
def Obligations.ElementStreamOfARun : Prop :=
  ∀ (k : Nat) (s t : State), s.block.err = false → .assertReset ∉ s.env.moves.take k →
    Host.Core.run Sys2Proof.core k s = .next t →
    ∃ ws, s.env.cmds = ws ++ t.env.cmds ∧
      t.env.taken ++ t.block.obuf = s.env.taken ++ s.block.obuf ++ elementStream s.params ws ∧
      t.block.pixcnt = s.block.pixcnt + BitVec.ofNat 32 (completedWords ws).length ∧
      (t.block.err = false → completedWords ws = ws) ∧
      (t.block.err = true → t.block.ecode = 0x01#8 ∧ ws.find? (fun w => !legalWord w) = some t.block.errword)

/-- R184, R185: over any number of steps without a reset, from any state with ERR = 1, ERR, ECODE, ERRWORD and PIXCNT
keep their values, nothing is appended to OBUF, and what leaves it is delivered in order. -/
def Obligations.TerminalStateOverARun : Prop :=
  ∀ (k : Nat) (s t : State), s.block.err = true → .assertReset ∉ s.env.moves.take k →
    Host.Core.run Sys2Proof.core k s = .next t →
    t.block = { s.block with obuf := t.block.obuf } ∧
      ∃ out, s.block.obuf = out ++ t.block.obuf ∧ t.env.taken = s.env.taken ++ out

/-- R54, R205: a run from a reset state at any capacity, under any schedule without a further reset, that ends drained
with ERR = 0 has succeeded for the words offered, and the consumer has taken exactly their elements: N elements where no
word is RGB565_8BIT, 2N where every word is. -/
def Obligations.DrainedRunDeliversEverything : Prop :=
  ∀ (p : Params) (moves : List Move) (ws : List Word) (k : Nat) (t : State),
    .assertReset ∉ moves →
    Host.Core.run Sys2Proof.core k
      { State.resetWith p with env := { Env.idle with moves := moves, cmds := ws } } = .next t →
    t.Drained → t.block.err = false →
    t.Succeeded ws.length ∧ t.env.taken = ws.flatMap (elemsOfWord p) ∧
      ((∀ w ∈ ws, fieldFmt w ≠ 3#2) → t.env.taken.length = ws.length) ∧
      ((∀ w ∈ ws, fieldFmt w = 3#2) → t.env.taken.length = 2 * ws.length)
end

