-- ==== Sys2Proof/Laws/Datapath.lean ====
section
/-! SUPPORT. The joins of disjoint fields as sums, and the bounds of the levels. -/

namespace Sys2Proof.Machine

/-- A channel is below 256. -/
theorem byte_le (x : Byte) : x.toNat ≤ 255 := by have := x.isLt; omega

/-- A level is at most m (R81 (a)). -/
theorem chanLevel_le {v m : Nat} (h : v ≤ 255) : chanLevel v m ≤ m := by
  have : v * m ≤ 255 * m := Nat.mul_le_mul_right m h
  unfold chanLevel
  omega

/-- Fields that do not overlap join by addition. -/
theorem shiftLeft_or_eq_add {a b n : Nat} (h : b < 2 ^ n) : (a <<< n) ||| b = a * 2 ^ n + b := by
  rw [← Nat.shiftLeft_add_eq_or_of_lt h, Nat.shiftLeft_eq]

/-- swap16 in arithmetic (R83). -/
theorem swap16_eq {v : Nat} (h : v ≤ 0xFFFF) : swap16 v = v % 256 * 256 + v / 256 := by
  unfold swap16
  have h1 : v &&& 0xFF = v % 256 := Nat.and_two_pow_sub_one_eq_mod v 8
  rw [h1, Nat.shiftRight_eq_div_pow, shiftLeft_or_eq_add (n := 8) (by omega)]
  norm_num

/-- pack565 in arithmetic (R84). -/
theorem pack565_eq {r g b : Nat} (hg : g ≤ 255) (hb : b ≤ 255) :
    pack565 r g b = chanLevel r 31 * 2 ^ 11 + chanLevel g 63 * 2 ^ 5 + chanLevel b 31 := by
  have h1 := chanLevel_le (m := 63) hg
  have h2 := chanLevel_le (m := 31) hb
  unfold pack565
  rw [Nat.lor_assoc, shiftLeft_or_eq_add (n := 5) (by omega), shiftLeft_or_eq_add (n := 11) (by omega), Nat.add_assoc]

/-- pack565 fits 16 bits (R84). -/
theorem pack565_le {r g b : Nat} (hr : r ≤ 255) (hg : g ≤ 255) (hb : b ≤ 255) : pack565 r g b ≤ 0xFFFF := by
  have h0 := chanLevel_le (m := 31) hr
  have h1 := chanLevel_le (m := 63) hg
  have h2 := chanLevel_le (m := 31) hb
  rw [pack565_eq hg hb]
  omega

/-- The RGB565 value fits 16 bits in both orders (R84, R100). -/
theorem rgb565_le (bo : ByteOrder) (r g b : Byte) : rgb565 bo r g b ≤ 0xFFFF := by
  have h := pack565_le (byte_le r) (byte_le g) (byte_le b)
  cases bo with
  | little => exact h
  | big => simp only [rgb565, swap16_eq h]; omega

/-- rgb332 in arithmetic (R120). -/
theorem rgb332_eq (r g b : Byte) :
    rgb332 r g b = chanLevel r.toNat 7 * 2 ^ 5 + chanLevel g.toNat 7 * 2 ^ 2 + chanLevel b.toNat 3 := by
  have h1 := chanLevel_le (m := 7) (byte_le g)
  have h2 := chanLevel_le (m := 3) (byte_le b)
  unfold rgb332
  rw [Nat.lor_assoc, shiftLeft_or_eq_add (n := 2) (by omega), shiftLeft_or_eq_add (n := 5) (by omega), Nat.add_assoc]

/-- The gray sum is at most 1000 * 255 (R141). -/
theorem graySum_le (r g b : Byte) : graySum r g b ≤ 255000 := by
  have := byte_le r
  have := byte_le g
  have := byte_le b
  unfold graySum
  omega

end Sys2Proof.Machine
end

