-- ==== Sys2Proof/Laws/State.lean ====
section
/-! SUPPORT. What each named update of the state leaves in each part, true by rfl; the buffer's updates as lists. -/

namespace Sys2Proof.Machine

variable (s : State) (e : Element) (es : List Element) (w : Word) (idx : RegIndex) (ms : List Move)

@[simp] theorem State.emit_params : (s.emit e).params = s.params := rfl
@[simp] theorem State.emit_resetSeen : (s.emit e).resetSeen = s.resetSeen := rfl
@[simp] theorem State.emit_env : (s.emit e).env = s.env := rfl
@[simp] theorem State.emit_block : (s.emit e).block = { s.block with obuf := s.block.obuf ++ [e] } := rfl

@[simp] theorem State.countPixel_params : s.countPixel.params = s.params := rfl
@[simp] theorem State.countPixel_resetSeen : s.countPixel.resetSeen = s.resetSeen := rfl
@[simp] theorem State.countPixel_env : s.countPixel.env = s.env := rfl
@[simp] theorem State.countPixel_block : s.countPixel.block = { s.block with pixcnt := s.block.pixcnt + 1 } := rfl

@[simp] theorem State.accept_params : s.accept.params = s.params := rfl
@[simp] theorem State.accept_resetSeen : s.accept.resetSeen = s.resetSeen := rfl
@[simp] theorem State.accept_block : s.accept.block = s.block := rfl
@[simp] theorem State.accept_env : s.accept.env = { s.env with cmds := s.env.cmds.tail } := rfl

@[simp] theorem State.raiseInvalidCommand_params : (s.raiseInvalidCommand w).params = s.params := rfl
@[simp] theorem State.raiseInvalidCommand_resetSeen : (s.raiseInvalidCommand w).resetSeen = s.resetSeen := rfl
@[simp] theorem State.raiseInvalidCommand_env : (s.raiseInvalidCommand w).env = s.env := rfl
@[simp] theorem State.raiseInvalidCommand_block :
    (s.raiseInvalidCommand w).block = { s.block with err := true, ecode := codeInvalidCmd, errword := w } := rfl

@[simp] theorem State.applyReset_params : s.applyReset.params = s.params := rfl
@[simp] theorem State.applyReset_resetSeen : s.applyReset.resetSeen = true := rfl
@[simp] theorem State.applyReset_block : s.applyReset.block = Block.reset := rfl
@[simp] theorem State.applyReset_env : s.applyReset.env = { s.env with rst := true } := rfl

@[simp] theorem State.releaseRst_params : s.releaseRst.params = s.params := rfl
@[simp] theorem State.releaseRst_resetSeen : s.releaseRst.resetSeen = s.resetSeen := rfl
@[simp] theorem State.releaseRst_block : s.releaseRst.block = s.block := rfl
@[simp] theorem State.releaseRst_env : s.releaseRst.env = { s.env with rst := false } := rfl

@[simp] theorem State.recordRead_params : (s.recordRead idx).params = s.params := rfl
@[simp] theorem State.recordRead_resetSeen : (s.recordRead idx).resetSeen = s.resetSeen := rfl
@[simp] theorem State.recordRead_block : (s.recordRead idx).block = s.block := rfl
@[simp] theorem State.recordRead_env :
    (s.recordRead idx).env = { s.env with reads := s.env.reads ++ [(idx, s.block.readReg idx)] } := rfl

@[simp] theorem State.withMoves_params : (s.withMoves ms).params = s.params := rfl
@[simp] theorem State.withMoves_resetSeen : (s.withMoves ms).resetSeen = s.resetSeen := rfl
@[simp] theorem State.withMoves_block : (s.withMoves ms).block = s.block := rfl
@[simp] theorem State.withMoves_env : (s.withMoves ms).env = { s.env with moves := ms } := rfl
@[simp] theorem State.withMoves_cmdReady : (s.withMoves ms).cmdReady = s.cmdReady := rfl
@[simp] theorem State.withMoves_outValid : (s.withMoves ms).outValid = s.outValid := rfl

@[simp] theorem State.offerNext_params : (s.offerNext w).params = s.params := rfl
@[simp] theorem State.offerNext_resetSeen : (s.offerNext w).resetSeen = s.resetSeen := rfl
@[simp] theorem State.offerNext_block : (s.offerNext w).block = s.block := rfl
@[simp] theorem State.offerNext_env :
    (s.offerNext w).env = { s.env with moves := .command :: s.env.moves, cmds := w :: s.env.cmds } := rfl

/-- Emitting a list appends it (R42, R90). -/
theorem State.emitAll_eq : s.emitAll es = { s with block := { s.block with obuf := s.block.obuf ++ es } } := by
  induction es generalizing s with
  | nil => simp [State.emitAll]
  | cons e es ih => simp [State.emitAll, ih, State.emit]

/-- A completed word's effect on the block (R90). -/
theorem State.complete_eq :
    s.complete es =
      { s with block := { s.block with obuf := s.block.obuf ++ es, pixcnt := s.block.pixcnt + 1 } } := by
  simp [State.complete, State.emitAll_eq, State.countPixel]

/-- Taking the head of a buffer that has one (R43). -/
theorem State.takeHead_cons {rest : List Element} (h : s.block.obuf = e :: rest) :
    s.takeHead = { s with
      block := { s.block with obuf := rest }, env := { s.env with taken := s.env.taken ++ [e] } } := by
  simp [State.takeHead, h]

end Sys2Proof.Machine
end

