-- ==== Sys2Proof/Laws/Ops.lean ====
section
/-! SUPPORT. What each shared operation can do, said once: readiness, the command step, the moves and the step. -/

namespace Sys2Proof.Machine

/-- Readiness as R89 writes it. -/
theorem State.cmdReady_iff (s : State) :
    s.cmdReady = true ↔
      s.env.rst = false ∧ (s.block.err = true ∨ 2 ≤ s.params.outDepth - s.block.obuf.length) := by
  simp [State.cmdReady]

/-- A state in which a word completes is ready. -/
theorem State.ready_of_completing {s : State} (h : s.Completing) : s.cmdReady = true :=
  s.cmdReady_iff.2 ⟨h.2.1, .inr h.2.2.2⟩

/-- Ready with ERR = 0 is room for two (R89). -/
theorem State.completing_of_ready {s : State} (hr : s.resetSeen = true) (hc : s.cmdReady = true)
    (he : s.block.err = false) : s.Completing := by
  obtain ⟨h1, h2 | h2⟩ := s.cmdReady_iff.1 hc
  · simp [he] at h2
  · exact ⟨hr, h1, he, h2⟩

/-- The command step of a word that completes or raises (R90). -/
theorem commandStep_of_completing {s : State} (h : s.Completing) (act : State → State) :
    commandStep act s = .next (act s.accept) := by
  simp [commandStep, h.1, State.ready_of_completing h, h.2.2.1]

/-- The command step in the terminal state (R184). -/
theorem commandStep_of_terminal {s : State} (hs : s.resetSeen = true) (hr : s.env.rst = false)
    (he : s.block.err = true) (act : State → State) : commandStep act s = .next s.accept := by
  simp [commandStep, hs, he, State.cmdReady, hr]

/-- Everything the command step can answer as a next state: a hold, a discard, or the act on the accepted state. -/
theorem commandStep_cases {act : State → State} {s t : State} (h : commandStep act s = .next t) :
    s.resetSeen = true ∧
      ((s.cmdReady = false ∧ t = s) ∨
       (s.cmdReady = true ∧ s.block.err = true ∧ t = s.accept) ∨
       (s.Completing ∧ t = act s.accept)) := by
  unfold commandStep at h
  split at h
  · cases h
  next hr =>
    have hr : s.resetSeen = true := by simpa using hr
    refine ⟨hr, ?_⟩
    split at h
    next hc => cases h; exact .inl ⟨hc, rfl⟩
    next hc =>
      have hc : s.cmdReady = true := by simpa using hc
      split at h
      next he => cases h; exact .inr (.inl ⟨hc, he, rfl⟩)
      next he => cases h; exact .inr (.inr ⟨State.completing_of_ready hr hc (by simpa using he), rfl⟩)

/-- Every command's meaning is the command step that completes its elements (R88, R90). -/
theorem exec_eq (i : Instr) (s : State) :
    exec i s = commandStep (fun t => t.complete (elems t.params i)) s := by
  cases i <;> rfl

/-- The elements of a command fit the two slots R89 reserves (R88). -/
theorem elems_length_le (p : Params) (i : Instr) : (elems p i).length ≤ 2 := by
  cases i <;> simp [elems, elemsQ565, elemsQ332, elemsQgray, elemsQ565s]

/-- A command move with a legal word on offer runs its command (R66, R90). -/
theorem commandMove_ok {s : State} {w : Word} {ws : List Word} {i : Instr} (h : s.env.cmds = w :: ws)
    (hd : decode w = .ok i) : commandMove s = exec i s := by
  simp [commandMove, h, hd]

/-- A command move with an illegal word on offer runs its command step (R64, R90). -/
theorem commandMove_error {s : State} {w : Word} {ws : List Word} {x : DecodeError} (h : s.env.cmds = w :: ws)
    (hd : decode w = .error x) : commandMove s = execIllegal w s := by
  simp [commandMove, h, hd]

/-- Everything a command move can answer as a next state. -/
theorem commandMove_cases {s t : State} (h : commandMove s = .next t) :
    (s.env.cmds = [] ∧ t = s) ∨
    ∃ w ws, s.env.cmds = w :: ws ∧ s.resetSeen = true ∧
      ((s.cmdReady = false ∧ t = s) ∨
       (s.cmdReady = true ∧ s.block.err = true ∧ t = s.accept) ∨
       (s.Completing ∧ ∃ i, decode w = .ok i ∧ t = s.accept.complete (elems s.params i)) ∨
       (s.Completing ∧ (∃ x, decode w = .error x) ∧ t = s.accept.raiseInvalidCommand w)) := by
  cases hc : s.env.cmds with
  | nil => simp [commandMove, hc] at h; exact .inl ⟨rfl, h.symm⟩
  | cons w ws =>
    right
    refine ⟨w, ws, rfl, ?_⟩
    cases hd : decode w with
    | ok i =>
      rw [commandMove_ok hc hd, exec_eq] at h
      obtain ⟨hr, h1 | h2 | ⟨h3, rfl⟩⟩ := commandStep_cases h
      · exact ⟨hr, .inl h1⟩
      · exact ⟨hr, .inr (.inl h2)⟩
      · exact ⟨hr, .inr (.inr (.inl ⟨h3, i, rfl, rfl⟩))⟩
    | error x =>
      rw [commandMove_error hc hd] at h
      obtain ⟨hr, h1 | h2 | ⟨h3, rfl⟩⟩ := commandStep_cases h
      · exact ⟨hr, .inl h1⟩
      · exact ⟨hr, .inr (.inl h2)⟩
      · exact ⟨hr, .inr (.inr (.inr ⟨h3, ⟨x, rfl⟩, rfl⟩))⟩

/-- Everything a Take can answer as a next state (R43). -/
theorem takeMove_cases {s t : State} (h : takeMove s = .next t) :
    s.resetSeen = true ∧
      ((s.outValid = false ∧ t = s) ∨
       ∃ e rest, s.env.rst = false ∧ s.block.obuf = e :: rest ∧
         t = { s with block := { s.block with obuf := rest }, env := { s.env with taken := s.env.taken ++ [e] } }) := by
  unfold takeMove at h
  split at h
  · cases h
  next hr =>
    refine ⟨by simpa using hr, ?_⟩
    split at h
    next hv => cases h; exact .inl ⟨hv, rfl⟩
    next hv =>
      cases h
      have hv : s.outValid = true := by simpa using hv
      simp only [State.outValid, Bool.and_eq_true, Bool.not_eq_true'] at hv
      cases ho : s.block.obuf with
      | nil => simp [ho] at hv
      | cons e rest => exact .inr ⟨e, rest, hv.1, rfl, s.takeHead_cons e ho⟩

/-- Everything a status read can answer as a next state (R27). -/
theorem readMove_cases {idx : RegIndex} {s t : State} (h : readMove idx s = .next t) :
    s.resetSeen = true ∧ t = s.recordRead idx := by
  unfold readMove at h
  split at h
  · cases h
  next hr => cases h; exact ⟨by simpa using hr, rfl⟩

/-- A step with no move to make. -/
theorem step_nil {s : State} (h : s.env.moves = []) : step s = .next s := by simp [step, stepMoves, h]

/-- A step with a move to make. -/
theorem step_cons {s : State} {m : Move} {ms : List Move} (h : s.env.moves = m :: ms) :
    step s = runMove m (s.withMoves ms) := by simp [step, stepMoves, h]

/-- Everything a step can answer as a next state: nothing, or one move's doing. -/
theorem step_cases {s t : State} (h : step s = .next t) :
    (s.env.moves = [] ∧ t = s) ∨
    ∃ m ms, s.env.moves = m :: ms ∧ runMove m (s.withMoves ms) = .next t := by
  cases hm : s.env.moves with
  | nil => rw [step_nil hm] at h; cases h; exact .inl ⟨rfl, rfl⟩
  | cons m ms => rw [step_cons hm] at h; exact .inr ⟨m, ms, rfl, h⟩

/-- The host's run, one step at its head. -/
theorem run_of_step {k : Nat} {s u : State} (h : step s = .next u) :
    Host.Core.run Sys2Proof.core (k + 1) s = Host.Core.run Sys2Proof.core k u := by
  have hs : Sys2Proof.core.step s = .next u := h
  simp only [Host.Core.run, hs]

/-- A run that reaches a next state, one step at its head. -/
theorem run_succ_cases {k : Nat} {s t : State} (h : Host.Core.run Sys2Proof.core (k + 1) s = .next t) :
    ∃ u, step s = .next u ∧ Host.Core.run Sys2Proof.core k u = .next t := by
  have hs : Sys2Proof.core.step s = step s := rfl
  cases hu : step s with
  | next u => exact ⟨u, rfl, by rw [← run_of_step hu, h]⟩
  | fault r => exact nomatch r
  | refused r => simp only [Host.Core.run, hs.trans hu] at h; cases h

end Sys2Proof.Machine
end

