-- ==== Sys2Proof/Laws/PerInstr.lean ====
section
/-! SUPPORT. The per-instruction family EncodesLegal: the word of a command has its reserved bits at 0 (R60, R64). -/

namespace Sys2Proof.Laws

/-- R60: a word written from its fields has RSV = 0. -/
theorem encodeFields_legal (fmt : OutputFormat) (bo : ByteOrder) (r g b : Byte) :
    legalWord (encodeFields fmt bo r g b) = true := by
  have h : ∀ (f : BitVec 2) (o : BitVec 1) (r g b : BitVec 8),
      ((f.setWidth 32 <<< 30) ||| (o.setWidth 32 <<< 29) ||| (r.setWidth 32 <<< 16) ||| (g.setWidth 32 <<< 8)
        ||| b.setWidth 32) &&& 0x1F000000#32 = 0#32 := by
    intro f o r g b
    ext i hi
    simp only [BitVec.getElem_and, BitVec.getElem_or, BitVec.getElem_shiftLeft, BitVec.getElem_setWidth]
    interval_cases i <;> simp [BitVec.getLsbD_of_ge]
  simp only [legalWord, encodeFields, h, beq_self_eq_true]

/-- The word of the command is legal. -/
def EncodesLegal.Statement (i : Instr) : Prop := i.wellFormed = true ∧ legalWord (encode i) = true

theorem EncodesLegal.q565 (bo : ByteOrder) (r g b : Byte) : EncodesLegal.Statement (.q565 bo r g b) :=
  ⟨rfl, encodeFields_legal _ _ _ _ _⟩

theorem EncodesLegal.q332 (bo : ByteOrder) (r g b : Byte) : EncodesLegal.Statement (.q332 bo r g b) :=
  ⟨rfl, encodeFields_legal _ _ _ _ _⟩

theorem EncodesLegal.qgray (bo : ByteOrder) (r g b : Byte) : EncodesLegal.Statement (.qgray bo r g b) :=
  ⟨rfl, encodeFields_legal _ _ _ _ _⟩

theorem EncodesLegal.q565s (bo : ByteOrder) (r g b : Byte) : EncodesLegal.Statement (.q565s bo r g b) :=
  ⟨rfl, encodeFields_legal _ _ _ _ _⟩

end Sys2Proof.Laws
end

