-- ==== Sys2Proof/Tests/Slice0.lean ====
section
/-! SUPPORT. Tests, with the vectors of spec/95_test_vectors.md and the worked examples of the rules, and the witnesses
of the statements' hypotheses. -/

namespace Sys2Proof.Tests

open Sys2Proof.Machine

/-- A machine after reset, with depth d, a block, a schedule and words on offer. -/
def machine (d : Nat) (b : Block) (ms : List Move) (ws : List Word) : State :=
  { State.resetWith { Params.default with outDepth := d } with
    block := b, env := { Env.idle with moves := ms, cmds := ws } }

/-- The next state of an outcome. -/
def nextOf : Result → Option State
  | .next s => some s
  | .fault _ => none
  | .refused _ => none

/-- The block after one step. -/
def blockAfter (s : State) : Option Block := (nextOf (step s)).map State.block

/-- The block in its terminal state after VERR-1, with elements pending. -/
def failed (es : List Element) : Block :=
  { err := true, ecode := 0x01, errword := 0x01000000, pixcnt := 0, obuf := es }

/-- The block with elements pending. -/
def pending (es : List Element) : Block := { Block.reset with obuf := es }

/-! ## Well-formedness: each check refuses an ill-formed term -/

theorem test_legalWord_refuses_rsv : legalWord 0x01000000 = false ∧ legalWord 0x1F000000 = false ∧
    legalWord 0xFFFFFFFF = false ∧ legalWord 0xE0FFFFFF = true := by decide
theorem test_params_refuses_depth : ({ Params.default with outDepth := 1 } : Params).wf = false ∧
    ({ Params.default with outDepth := 256 } : Params).wf = false ∧ Params.default.wf = true ∧
    ({ Params.default with outDepth := 255 } : Params).wf = true := by decide
theorem test_asm_refuses_range : asmWellFormed (.op .rgb565 .little 256 0 0) = false ∧
    asmWellFormed (.op .rgb565 .little 0 256 0) = false ∧ asmWellFormed (.op .rgb565 .little 0 0 256) = false ∧
    asmWellFormed (.qpix .rgb565 .little (2 ^ 24)) = false ∧ asmWellFormed (.literal (2 ^ 32)) = false ∧
    asmWellFormed (.op .rgb565 .little 255 255 255) = true := by decide

/-! ## Decoding: words written out from R60's layout `ffozzzzzrrrrrrrrggggggggbbbbbbbb` -/

theorem test_decode_q565 : decode 0b00100000000100100011010001010110 = .ok (.q565 .big 18 52 86) := by decide
theorem test_decode_q332 : decode 0b01000000110010000110010000110010 = .ok (.q332 .little 200 100 50) := by decide
theorem test_decode_qgray : decode 0b10100000000000000100100000011000 = .ok (.qgray .big 0 72 24) := by decide
theorem test_decode_q565s : decode 0b11000000000001010000001100000101 = .ok (.q565s .little 5 3 5) := by decide
/-- VERR-3, VERR-4, VERR-5. -/
theorem test_decode_illegal : decode 0xFFFFFFFF = .error (.reservedBitsSet 0x1F) ∧
    decode 0x21FFFFFF = .error (.reservedBitsSet 1) ∧ decode 0x80800000 = .ok (.qgray .little 128 0 0) := by decide
theorem test_encode_words : encode (.q565 .big 255 0 0) = 0x20FF0000 ∧ encode (.q565s .big 200 100 50) = 0xE0C86432 ∧
    encode (.q332 .big 0 255 0) = 0x6000FF00 ∧ encode (.qgray .little 0 126 167) = 0x80007EA7 := by decide
theorem test_decodeTableWord : decodeTableWord 32 0xC0C86432 = some (.q565s .little 200 100 50) ∧
    decodeTableWord 32 0x1F000000 = none := by decide

/-! ## The four commands (vectors of L2) -/

/-- V565-18, V565-8. -/
theorem test_q565 : blockAfter (machine 2 .reset [.command] [0x20123456]) =
      some { Block.reset with pixcnt := 1, obuf := [.h16 0xAA11] } ∧
    blockAfter (machine 2 .reset [.command] [0x00FA0000]) =
      some { Block.reset with pixcnt := 1, obuf := [.h16 0xF000] } := by decide
/-- V332-7 with BO = 1, V332-12. -/
theorem test_q332 : blockAfter (machine 2 .reset [.command] [0x6013132B]) =
      some { Block.reset with pixcnt := 1, obuf := [.b8 0x25] } ∧
    blockAfter (machine 2 .reset [.command] [0x40123456]) =
      some { Block.reset with pixcnt := 1, obuf := [.b8 0x05] } := by decide
/-- VGRAY-15; VGRAY-4, the C1 value 0x95, with BO = 1. -/
theorem test_qgray : blockAfter (machine 2 .reset [.command] [0x80004818]) =
      some { Block.reset with pixcnt := 1, obuf := [.b8 0x2D] } ∧
    blockAfter (machine 2 .reset [.command] [0xA000FF00]) =
      some { Block.reset with pixcnt := 1, obuf := [.b8 0x95] } := by decide
/-- The BINARY64 column of VGRAY-10, 12, 16 and 7. -/
theorem test_gray_binary64 : gray8 .binary64 1 1 1 = 0 ∧ gray8 .binary64 64 64 64 = 63 ∧
    gray8 .binary64 0 126 167 = 92 ∧ gray8 .binary64 200 100 50 = 124 := by decide
/-- The weights are the multiples of their binade's unit nearest 0.299, 0.587 and 0.114 (R143; IEEE 754). -/
theorem test_binary64_weights :
    (weightR % 2 ^ 2 = 0 ∧ 2 ^ 54 ≤ weightR ∧ weightR < 2 ^ 55 ∧
      2 * (weightR * 1000) ≤ 2 * (299 * 2 ^ 56) + 4 * 1000 ∧ 2 * (299 * 2 ^ 56) ≤ 2 * (weightR * 1000) + 4 * 1000) ∧
    (weightG % 2 ^ 3 = 0 ∧ 2 ^ 55 ≤ weightG ∧ weightG < 2 ^ 56 ∧
      2 * (weightG * 1000) ≤ 2 * (587 * 2 ^ 56) + 8 * 1000 ∧ 2 * (587 * 2 ^ 56) ≤ 2 * (weightG * 1000) + 8 * 1000) ∧
    (2 ^ 52 ≤ weightB ∧ weightB < 2 ^ 53 ∧
      2 * (weightB * 1000) ≤ 2 * (114 * 2 ^ 56) + 1000 ∧ 2 * (114 * 2 ^ 56) ≤ 2 * (weightB * 1000) + 1000) := by decide
/-- V565S-8 in both orders. -/
theorem test_q565s : blockAfter (machine 2 .reset [.command] [0xC0050305]) =
      some { Block.reset with pixcnt := 1, obuf := [.b8 0x08, .b8 0x21] } ∧
    blockAfter (machine 2 .reset [.command] [0xE0050305]) =
      some { Block.reset with pixcnt := 1, obuf := [.b8 0x21, .b8 0x08] } := by decide
/-- VST-4: the counter wraps without a flag. -/
theorem test_pixcnt_wraps : blockAfter (machine 2 { Block.reset with pixcnt := 0xFFFFFFFF } [.command] [0x40000000]) =
    some { Block.reset with pixcnt := 0, obuf := [.b8 0] } := by decide

/-! ## Errors, readiness, reset -/

/-- VERR-1; P4 step 3: the element emitted before the error stays. -/
theorem test_illegal_word : blockAfter (machine 2 .reset [.command] [0x01000000]) = some (failed []) ∧
    blockAfter (machine 4 { pending [.h16 0xFFE0] with pixcnt := 1 } [.command] [0x01010203]) =
      some { err := true, ecode := 0x01, errword := 0x01010203, pixcnt := 1, obuf := [.h16 0xFFE0] } := by decide
/-- VTERM-1, VTERM-2. -/
theorem test_terminal : blockAfter (machine 2 (failed []) [.command] [0x00FFFFFF]) = some (failed []) ∧
    blockAfter (machine 2 (failed []) [.command] [0x02000000]) = some (failed []) := by decide
/-- VRDY-1 to VRDY-5, VRDY-8, VTERM-3. -/
theorem test_ready : (machine 2 .reset [] []).cmdReady = true ∧ (machine 2 (pending [.b8 0]) [] []).cmdReady = false ∧
    (machine 2 (pending [.b8 0, .b8 0]) [] []).cmdReady = false ∧
    (machine 4 (pending [.b8 0, .b8 0]) [] []).cmdReady = true ∧
    (machine 2 (failed [.b8 0, .b8 0]) [] []).cmdReady = true ∧
    (machine 2 .reset [] []).applyReset.cmdReady = false := by decide
/-- VRDY-6, VRDY-7. -/
theorem test_ready_depth_255 (es : List Element) :
    (es.length = 253 → (machine 255 (pending es) [] []).cmdReady = true) ∧
    (es.length = 254 → (machine 255 (pending es) [] []).cmdReady = false) := by
  constructor <;> intro h <;> simp [State.cmdReady, machine, pending, State.resetWith, Env.idle, Block.reset, h]
/-- VST-2. -/
theorem test_status_port :
    let b : Block := { err := true, ecode := 0x01, errword := 0x01010203, pixcnt := 1, obuf := [.h16 0xFFE0] }
    b.readReg 0 = 0x00010101 ∧ b.readReg 1 = 1 ∧ b.readReg 2 = 0x01010203 ∧ b.readReg 3 = 0 := by decide
/-- P6 step 3: an offer that is held, with its word still on offer. -/
theorem test_hold : nextOf (step (machine 2 (pending [.h16 0x001F]) [.command] [0xC0FF0000])) =
    some (machine 2 (pending [.h16 0x001F]) [] [0xC0FF0000]) := by decide
/-- P3 step 3. -/
theorem test_take : nextOf (step (machine 2 (pending [.b8 0xC3, .b8 0x26]) [.take] [])) =
    some { machine 2 (pending [.b8 0x26]) [] [] with env := { Env.idle with taken := [.b8 0xC3] } } := by decide
/-- VTERM-4, P5 step 4. -/
theorem test_reset : blockAfter (machine 4 (failed [.b8 0xE0]) [.assertReset] [0x6000FF00]) = some .reset := by decide
/-- The step runs the placed word as the first after reset. -/
theorem test_withFetchWord : blockAfter (State.reset.withFetchWord 32 0x40FF0000) =
    some { Block.reset with pixcnt := 1, obuf := [.b8 0xE0] } := by decide

/-! ## The assembler (R68, R69) -/

theorem test_asm_lines : assemble ["QGRAY   0, 255, 0        ; 0x8000FF00   row 0, column 1",
      "Q565.BE 255, 0x0, 0", "Q565S 200,100,50", "  ; reset", "QPIX.565.BE 0x123456 ; P2", ".word 0x01010203"] =
    some [0x8000FF00, 0x20FF0000, 0xC0C86432, 0x20123456, 0x01010203] := by decide
theorem test_asm_refusals : assemble ["Q565 256, 0, 0"] = none ∧ assemble ["Q332.XE 0, 0, 0"] = none ∧
    assemble ["QGRAY 0, 0"] = none ∧ assemble [".word 0x123"] = none ∧ assemble ["Q565 0x, 0, 0"] = none := by decide

/-! ## Witnesses: for each statement with hypotheses, a state and operands that meet them all -/

theorem witness_EncodeAfterDecode : decode 0xE0C86432 = .ok (.q565s .big 200 100 50) := by decide
theorem witness_DecoderFollowsTheTable :
    (0x20FFFFFF : Word) &&& 0xDF000000 = 0x00000000 ∧ (0x60FFFFFF : Word) &&& 0xDF000000 = 0x40000000 ∧
    (0xA0000000 : Word) &&& 0xDF000000 = 0x80000000 ∧ (0xC0FFFFFF : Word) &&& 0xDF000000 = 0xC0000000 ∧
    (0x01000000 : Word) &&& 0x1F000000 ≠ 0 ∧
    (∃ x ∈ opcodeTable, x.hits 0x20FFFFFF = true) := by decide
theorem witness_AssemblerNeverTruncates : (255 ≤ 255 ∧ 0 ≤ 255) ∧ (255 < 256 ∨ 255 < 0) ∧
    (2 ^ 24 - 1 < 2 ^ 24 ∧ 2 ^ 24 ≤ 2 ^ 24) ∧ (2 ^ 32 - 1 < 2 ^ 32 ∧ 2 ^ 32 ≤ 2 ^ 32) := by norm_num
/-- For LevelLaws, LevelIsTheNearestInteger, LevelRoundTripBound and Pack565FieldLayout, at both ends of the ranges. -/
theorem witness_channel_range : (31 : Nat) ∈ [31, 63, 7, 3] ∧ (3 : Nat) ∈ [31, 63, 7, 3] ∧ 255 ≤ 255 ∧ 0 ≤ 255 := by decide
theorem witness_LevelThresholds : (255 : Nat) < 256 ∧ (31 : Nat) ≤ 31 := by decide
theorem witness_SwapExchangesTheBytes : (0xFFFF : Nat) ≤ 0xFFFF := by decide
/-- For Q565Completes, Q332Completes, QgrayCompletes, Q565sCompletes and CompletedCommandAppendsItsElements: an empty
buffer, and one with exactly two free slots left. -/
theorem witness_completing : State.reset.Completing ∧ State.reset.params.grayArith = .exact ∧
    State.reset.params.splitSwaps = true ∧
    (machine 4 (pending [.b8 1, .b8 2]) [] []).Completing := by decide
/-- For QgrayBinary64Completes and Q565sWithoutSwapCompletes. -/
theorem witness_alternatives :
    let s := State.resetWith { outDepth := 2, grayArith := .binary64, splitSwaps := false }
    s.Completing ∧ s.params.grayArith = .binary64 ∧ s.params.splitSwaps = false := by decide
/-- One state for each of the four outcomes. -/
theorem witness_CommandThatDoesNotComplete :
    ¬ ({ State.reset with resetSeen := false } : State).Completing ∧ ¬ State.reset.applyReset.Completing ∧
    ¬ (machine 2 (failed []) [] []).Completing ∧ ¬ (machine 2 (pending [.b8 0]) [] []).Completing := by decide
theorem witness_ElementsDependOnTheFieldsAlone :
    State.reset.params = (machine 2 { Block.reset with pixcnt := 9 } [] []).params ∧
    (machine 2 { Block.reset with pixcnt := 9 } [] []).Completing ∧
    (nextOf (exec (.q565 .big 1 2 3) State.reset)).isSome = true ∧
    (nextOf (exec (.q565 .big 1 2 3) (machine 2 { Block.reset with pixcnt := 9 } [] []))).isSome = true := by decide
theorem witness_StepRunsTheDecodedCommand :
    let s := machine 2 .reset [.command, .take] [0xE0C86432, 0]
    s.env.moves = .command :: [.take] ∧ s.env.cmds = 0xE0C86432 :: [0] ∧
      decode 0xE0C86432 = .ok (.q565s .big 200 100 50) := by decide
theorem witness_NoOfferNoChange : State.reset.env.moves = [] ∧
    (machine 2 .reset [.command] []).env.moves = .command :: [] ∧ (machine 2 .reset [.command] []).env.cmds = [] := by decide
theorem witness_ReadyExactlyWhenTwoSlotsOrError : State.reset.params.wf = true ∧ State.reset.env.rst = false ∧
    State.reset.block.obuf = [] := by decide
theorem witness_OfferIsHeldWithoutRoom :
    let s := machine 2 (pending [.b8 0]) [.command] [0x40000000]
    s.env.moves = .command :: [] ∧ s.env.cmds = 0x40000000 :: [] ∧ s.resetSeen = true ∧ s.block.err = false ∧
      s.params.outDepth - s.block.obuf.length < 2 := by decide
/-- A full buffer, with any word held: a legal word (0x40000000) and an illegal one (0x1F000000) among them. -/
theorem witness_TakesLiftTheHold :
    let s := machine 2 (pending [.b8 1, .b8 2]) [.take, .take, .command] [0x40000000]
    s.Inv ∧ s.resetSeen = true ∧ s.env.rst = false ∧ s.block.err = false ∧ s.cmdReady = false ∧
      s.env.moves = List.replicate s.block.obuf.length .take ++ .command :: [] ∧ s.env.cmds = 0x40000000 :: [] ∧
      legalWord 0x40000000 = true := by decide
theorem witness_TakesLiftTheHold_illegal :
    let s := machine 2 (pending [.b8 1, .b8 2]) [.take, .take, .command] [0x1F000000]
    s.Inv ∧ s.resetSeen = true ∧ s.env.rst = false ∧ s.block.err = false ∧ s.cmdReady = false ∧
      s.env.moves = List.replicate s.block.obuf.length .take ++ .command :: [] ∧ s.env.cmds = 0x1F000000 :: [] ∧
      legalWord 0x1F000000 = false := by decide
theorem witness_IllegalWordTakesTheError :
    let s := machine 2 .reset [.command] [0x1F000000]
    s.Completing ∧ s.env.moves = .command :: [] ∧ s.env.cmds = 0x1F000000 :: [] ∧
      (0x1F000000 : Word) &&& 0x1F000000 ≠ 0 := by decide
theorem witness_TerminalStateDiscardsEveryWord :
    let s := machine 2 (failed [.b8 1]) [.command] [0x02000000]
    s.resetSeen = true ∧ s.env.rst = false ∧ s.block.err = true ∧ s.env.moves = .command :: [] ∧
      s.env.cmds = 0x02000000 :: [] ∧ (nextOf (step s)).isSome = true := by decide
theorem witness_OnlyAnIllegalWordSetsErr :
    let s := machine 2 .reset [.command] [0x1F000000]
    s.block.err = false ∧ (blockAfter s).map Block.err = some true := by decide
/-- A step of each kind answers a next state: the hypothesis of PixcntCountsCompletedWordsOnly, ObufChangesOnlyWhole,
NoStepChangesTheParameters and RecordsDoNotReachTheBlock. -/
theorem witness_every_step :
    (nextOf (step (machine 2 .reset [.command] [0xC0000000]))).isSome = true ∧
    (nextOf (step (machine 2 .reset [.command] [0x1F000000]))).isSome = true ∧
    (nextOf (step (machine 2 (pending [.b8 1]) [.take] []))).isSome = true ∧
    (nextOf (step (machine 2 .reset [.read 2] []))).isSome = true ∧
    (nextOf (step (machine 2 (failed []) [.assertReset] []))).isSome = true ∧
    (nextOf (step (machine 2 .reset [.releaseReset] []))).isSome = true := by decide
theorem witness_TakeDeliversTheHead :
    let s := machine 2 (failed [.h16 0xFFE0]) [.take] []
    s.resetSeen = true ∧ s.env.moves = .take :: [] ∧ s.block.obuf = .h16 0xFFE0 :: [] ∧ s.env.rst = false ∧
      State.reset.outValid = false ∧ State.reset.resetSeen = true := by decide
theorem witness_StatusReadReturnsTheRegister :
    let s := machine 2 (failed []) [.read 3] []
    s.resetSeen = true ∧ s.env.moves = .read 3 :: [] := by decide
theorem witness_StatusLayout : (pending (List.replicate 255 (.b8 0))).obuf.length ≤ 255 :=
  le_of_eq List.length_replicate
theorem witness_ResetStepClearsTheBlock :
    let s := machine 2 (failed []) [.assertReset] []
    s.env.moves = .assertReset :: [] ∧ s.block.err = true ∧ (blockAfter s).map Block.err = some false := by decide
theorem witness_HeldInResetUntilReleased :
    let s := (machine 2 (failed []) [.command] [0]).applyReset
    let u := machine 2 (failed []) [.assertReset, .releaseReset] []
    let v := (machine 2 .reset [.releaseReset] []).applyReset
    s.resetSeen = true ∧ s.env.rst = true ∧ s.env.moves = .command :: [] ∧
      v.params.wf = true ∧ v.env.rst = true ∧ v.block = .reset ∧ (nextOf (step v)).map (fun t => t.env.rst) = some false ∧
      u.params.wf = true ∧ u.env.moves = .assertReset :: .releaseReset :: [] := by decide
theorem witness_NothingRunsBeforeTheFirstReset :
    let s := { machine 2 (failed []) [.command] [0] with resetSeen := false }
    s.resetSeen = false ∧ s.env.moves = .command :: [] ∧ s.env.cmds ≠ [] := by decide
theorem witness_EveryStepKeepsTheInvariant :
    let s := machine 2 (pending [.b8 1]) [.take] []
    s.Inv ∧ (nextOf (step s)).isSome = true := by decide
theorem witness_ResetMeetsTheInvariant : ({ Params.default with outDepth := 255 } : Params).wf = true := by decide
theorem witness_ElementStreamOfARun :
    let s := machine 2 .reset [.command, .take] [0x80FF0000]
    s.block.err = false ∧ .assertReset ∉ s.env.moves.take 2 ∧
      (nextOf (Host.Core.run Sys2Proof.core 2 s)).isSome = true := by decide
theorem witness_TerminalStateOverARun :
    let s := machine 2 (failed [.b8 1]) [.command, .take] [0x80FF0000]
    s.block.err = true ∧ .assertReset ∉ s.env.moves.take 2 ∧
      (nextOf (Host.Core.run Sys2Proof.core 2 s)).isSome = true := by decide
/-- The run of k steps from the default reset state with this schedule and these words ends drained with ERR = 0. -/
def drainsCleanly (k : Nat) (moves : List Move) (ws : List Word) : Bool :=
  (nextOf (Host.Core.run Sys2Proof.core k
    { State.resetWith Params.default with env := { Env.idle with moves := moves, cmds := ws } })).any
      fun t => decide t.Drained && decide (t.block.err = false)

/-- The N clause: one GRAY8 word. -/
theorem witness_DrainedRunDeliversEverything :
    .assertReset ∉ [Move.command, .take] ∧ drainsCleanly 2 [.command, .take] [0x80FF0000] = true ∧
      ∀ w ∈ [(0x80FF0000 : Word)], fieldFmt w ≠ 3 := by
  exact ⟨by decide, rfl, by simp [fieldFmt]⟩
/-- The 2N clause: one RGB565_8BIT word, whose two elements are taken. -/
theorem witness_DrainedRunDeliversEverything_split :
    .assertReset ∉ [Move.command, .take, .take] ∧
      drainsCleanly 3 [.command, .take, .take] [0xC0FF0000] = true ∧
      ∀ w ∈ [(0xC0FF0000 : Word)], fieldFmt w = 3 := by
  exact ⟨by decide, rfl, by simp [fieldFmt]⟩

end Sys2Proof.Tests
end

/-! PROOFS of the scope family: the named alternative of SPLIT_SWAPS, and the parameters no step changes (R8, R22). -/

namespace Sys2Proof.Machine

/-- The whole next state of a command that completes (R88, R90): its elements appended, its pixel counted, its word
consumed. -/
theorem exec_of_completing {s : State} (h : s.Completing) (i : Instr) :
    exec i s =
      .next { s with
        block := { s.block with
          obuf := s.block.obuf ++ elems s.params i
          pixcnt := s.block.pixcnt + 1 }
        env := { s.env with cmds := s.env.cmds.tail } } := by
  rw [exec_eq, commandStep_of_completing h, State.complete_eq]
  rfl

/-- Without the swap Q565S splits the packed value, whatever the byte order (R88, R161). -/
theorem elemsQ565s_false (bo : ByteOrder) (r g b : Byte) :
    elemsQ565s false bo r g b =
      [elemB8 (pack565 r.toNat g.toNat b.toNat >>> 8), elemB8 (pack565 r.toNat g.toNat b.toNat &&& 0xFF)] := rfl

/-- Settles O25: the next state of a completing command, at the elements of the unswapped split. -/
theorem q565sWithoutSwapCompletes : Obligations.Q565sWithoutSwapCompletes := by
  intro bo r g b s hc hswap
  rw [exec_of_completing hc, elems, hswap, elemsQ565s_false]
  rfl

@[simp] theorem State.complete_params (s : State) (es : List Element) : (s.complete es).params = s.params := by
  rw [State.complete_eq]

/-- A command move keeps the parameters, whether its word is held, discarded, completed or raises the error. -/
theorem commandMove_params {s t : State} (h : commandMove s = .next t) : t.params = s.params := by
  obtain ⟨-, rfl⟩ | ⟨w, ws, -, -, ⟨-, rfl⟩ | ⟨-, -, rfl⟩ | ⟨-, i, -, rfl⟩ | ⟨-, -, rfl⟩⟩ := commandMove_cases h
  case inl => rfl
  case inr.inl => rfl
  case inr.inr.inl => exact s.accept_params
  case inr.inr.inr.inl => rw [State.complete_params, State.accept_params]
  case inr.inr.inr.inr => rw [State.raiseInvalidCommand_params, State.accept_params]

/-- A Take keeps the parameters. -/
theorem takeMove_params {s t : State} (h : takeMove s = .next t) : t.params = s.params := by
  obtain ⟨-, ⟨-, rfl⟩ | ⟨e, rest, -, -, rfl⟩⟩ := takeMove_cases h
  · rfl
  · rfl

/-- A status read keeps the parameters. -/
theorem readMove_params {idx : RegIndex} {s t : State} (h : readMove idx s = .next t) : t.params = s.params := by
  obtain ⟨-, rfl⟩ := readMove_cases h
  exact s.recordRead_params idx

/-- Every move of an agent keeps the parameters, a reset step too (R8, R22). -/
theorem runMove_params {m : Move} {s t : State} (h : runMove m s = .next t) : t.params = s.params := by
  cases m with
  | command => exact commandMove_params h
  | take => exact takeMove_params h
  | read idx => exact readMove_params h
  | assertReset => cases h; exact s.applyReset_params
  | releaseReset => cases h; exact s.releaseRst_params

/-- Settles O51: a step is one move on the state without that move, or nothing. -/
theorem noStepChangesTheParameters : Obligations.NoStepChangesTheParameters := by
  intro s t h
  obtain ⟨-, rfl⟩ | ⟨m, ms, -, hmove⟩ := step_cases h
  · rfl
  · exact (runMove_params hmove).trans (s.withMoves_params ms)

end Sys2Proof.Machine

/-! PROOFS of the state family: the status registers, what a step can do to the block, the invariant, and the agents'
records (R22 to R33). -/

namespace Sys2Proof.Machine

/-! ### Legal words -/

/-- The reserved field is 0 exactly when R64's mask finds no bit. -/
theorem legalWord_iff_fieldRsv (w : Word) : legalWord w = true ↔ fieldRsv w = 0#5 := by
  have hmask : w &&& 0x1F000000#32 = (fieldRsv w).setWidth 32 <<< 24 := by
    ext i hi
    simp only [fieldRsv, BitVec.getElem_and, BitVec.getElem_shiftLeft]
    interval_cases i <;> simp
  rw [legalWord, beq_iff_eq, hmask]
  constructor
  · intro h
    ext i hi
    have hbit := congrArg (fun x => x.getLsbD (24 + i)) h
    simpa [hi, show i < 32 by omega, show 24 + i < 32 by omega] using hbit
  · intro h
    rw [h]
    rfl

/-- A word that decodes is legal (R64, R66). -/
theorem legalWord_of_decode_ok {w : Word} {i : Instr} (h : decode w = .ok i) : legalWord w = true := by
  rw [legalWord_iff_fieldRsv]
  by_contra hrsv
  simp [decode, hrsv] at h

/-- A word that does not decode is illegal (R64, R66). -/
theorem legalWord_of_decode_error {w : Word} {x : DecodeError} (h : decode w = .error x) :
    legalWord w = false := by
  rw [← Bool.not_eq_true, legalWord_iff_fieldRsv]
  intro hrsv
  simp [decode, hrsv] at h

/-! ### What a step can do to the block -/

/-- The five ways from the state s to a next state t, as far as the block and its reset go. Where the block works (a
Take, a completed word, the error entry), a reset has happened and `rst` is deasserted. -/
inductive BlockStep (s t : State) : Prop where
  /-- The block stays as it is, and the step asserts no `rst`. -/
  | kept (hblock : t.block = s.block) (hseen : t.resetSeen = s.resetSeen)
      (hrst : t.env.rst = true → s.env.rst = true)
  /-- The reset step (R200). -/
  | cleared (hmove : ∃ ms, s.env.moves = .assertReset :: ms) (hblock : t.block = Block.reset)
  /-- A Take removes the head of OBUF (R43). -/
  | took {e : Element} {rest : List Element} (hseen : s.resetSeen = true) (hrst : t.env.rst = false)
      (hobuf : s.block.obuf = e :: rest) (hblock : t.block = { s.block with obuf := rest })
  /-- A legal word completes (R90). -/
  | completed {ms : List Move} {w : Word} {ws : List Word} {i : Instr} (hmove : s.env.moves = .command :: ms)
      (hoffer : s.env.cmds = w :: ws) (hdecode : decode w = .ok i) (hready : s.Completing)
      (hrst : t.env.rst = false)
      (hblock : t.block =
        { s.block with obuf := s.block.obuf ++ elems s.params i, pixcnt := s.block.pixcnt + 1 })
  /-- An illegal word takes the error (R182). -/
  | failed {ms : List Move} {w : Word} {ws : List Word} (hmove : s.env.moves = .command :: ms)
      (hoffer : s.env.cmds = w :: ws) (hillegal : legalWord w = false) (hready : s.Completing)
      (hrst : t.env.rst = false)
      (hblock : t.block = { s.block with err := true, ecode := codeInvalidCmd, errword := w })

/-- A command move holds or discards its word, completes it, or takes the error. -/
theorem BlockStep.of_commandMove {s t : State} {ms : List Move} (hmove : s.env.moves = .command :: ms)
    (h : commandMove (s.withMoves ms) = .next t) : BlockStep s t := by
  obtain ⟨-, rfl⟩ | ⟨w, ws, hoffer, -, ⟨-, rfl⟩ | ⟨-, -, rfl⟩ | ⟨hc, i, hd, rfl⟩ | ⟨hc, ⟨x, hd⟩, rfl⟩⟩ :=
    commandMove_cases h
  case inl => exact .kept rfl rfl id
  case inr.inl => exact .kept rfl rfl id
  case inr.inr.inl => exact .kept rfl rfl id
  case inr.inr.inr.inl =>
    rw [State.complete_eq]
    exact .completed hmove hoffer hd hc hc.2.1 rfl
  case inr.inr.inr.inr => exact .failed hmove hoffer (legalWord_of_decode_error hd) hc hc.2.1 rfl

/-- A Take that is enabled removes the head. -/
theorem BlockStep.of_takeMove {s t : State} {ms : List Move} (h : takeMove (s.withMoves ms) = .next t) :
    BlockStep s t := by
  obtain ⟨hseen, ⟨-, rfl⟩ | ⟨e, rest, hrst, hobuf, rfl⟩⟩ := takeMove_cases h
  · exact .kept rfl rfl id
  · exact .took hseen hrst hobuf rfl

/-- Every step changes the block in one of the five ways. -/
theorem blockStep_of_step {s t : State} (h : step s = .next t) : BlockStep s t := by
  obtain ⟨-, rfl⟩ | ⟨m, ms, hmove, hm⟩ := step_cases h
  · exact .kept rfl rfl id
  cases m with
  | command => exact .of_commandMove hmove hm
  | take => exact .of_takeMove hm
  | read idx =>
    obtain ⟨-, rfl⟩ := readMove_cases hm
    exact .kept rfl rfl id
  | assertReset => cases hm; exact .cleared ⟨ms, hmove⟩ rfl
  | releaseReset => cases hm; exact .kept rfl rfl (by simp)

/-- Settles O38: of the five ways only the error entry sets ERR. -/
theorem onlyAnIllegalWordSetsErr : Obligations.OnlyAnIllegalWordSetsErr := by
  intro s t hs h ht
  cases blockStep_of_step h with
  | kept hblock => simp [hblock, hs] at ht
  | cleared _ hblock => simp [hblock, Block.reset] at ht
  | took _ _ _ hblock => simp [hblock, hs] at ht
  | completed _ _ _ _ _ hblock => simp [hblock, hs] at ht
  | failed hmove hoffer hillegal hready _ hblock => exact ⟨_, _, _, hmove, hoffer, hillegal, hready, hblock⟩

/-- Settles O39: of the five ways only a completed word and the reset step write PIXCNT. -/
theorem pixcntCountsCompletedWordsOnly : Obligations.PixcntCountsCompletedWordsOnly := by
  intro s t h
  cases blockStep_of_step h with
  | kept hblock => exact .inl (by rw [hblock])
  | cleared hmove hblock => exact .inr (.inl ⟨hmove, by rw [hblock]; rfl⟩)
  | took _ _ _ hblock => exact .inl (by rw [hblock])
  | completed hmove hoffer hdecode hready _ hblock =>
    refine .inr (.inr ⟨_, _, _, hmove, hoffer, legalWord_of_decode_ok hdecode, hready, ?_⟩)
    rw [hblock]
    exact BitVec.toNat_add s.block.pixcnt 1#32
  | failed _ _ _ _ _ hblock => exact .inl (by rw [hblock])

/-! ### The invariant -/

/-- The reset block is as the spec keeps it, at every capacity (R33). -/
theorem Block.reset_wf (p : Params) : Block.reset.Wf p :=
  ⟨Nat.zero_le _, fun _ => ⟨rfl, rfl⟩, fun h => nomatch h⟩

/-- Another buffer within the capacity, whatever PIXCNT is (R30). -/
theorem Block.Wf.of_obuf_pixcnt {p : Params} {b : Block} {es : List Element} {n : Word} (h : b.Wf p)
    (hlen : es.length ≤ p.outDepth) : Block.Wf p { b with obuf := es, pixcnt := n } :=
  ⟨hlen, h.2⟩

/-- The error entry with an illegal word (R182). -/
theorem Block.Wf.of_error {p : Params} {b : Block} {w : Word} (h : b.Wf p) (hw : legalWord w = false) :
    Block.Wf p { b with err := true, ecode := codeInvalidCmd, errword := w } :=
  ⟨h.1, fun herr => (nomatch herr), fun _ => ⟨rfl, hw⟩⟩

/-- The two free slots of a completing state hold the elements of any command (R88, R89). -/
theorem State.Completing.room {s : State} (h : s.Completing) (i : Instr) :
    (s.block.obuf ++ elems s.params i).length ≤ s.params.outDepth := by
  obtain ⟨-, -, -, hfree⟩ := h
  have := elems_length_le s.params i
  rw [List.length_append]
  omega

/-- The invariant at any state with the block in its reset state. -/
theorem State.Inv.of_block_reset {s : State} (hp : s.params.wf = true) (hb : s.block = Block.reset) : s.Inv :=
  ⟨hp, fun _ => ⟨by rw [hb]; exact Block.reset_wf _, fun _ => hb⟩⟩

/-- The invariant at a state whose `rst` is deasserted. -/
theorem State.Inv.of_rst_low {t : State} {p : Params} {b : Block} (hwf : p.wf = true) (hparams : t.params = p)
    (hrst : t.env.rst = false) (hblock : t.block = b) (hb : b.Wf p) : t.Inv := by
  subst hparams hblock
  exact ⟨hwf, fun _ => ⟨hb, fun h => by simp [hrst] at h⟩⟩

/-- Settles O49: the reset block meets the invariant with any parameters in range. -/
theorem resetMeetsTheInvariant : Obligations.ResetMeetsTheInvariant :=
  ⟨.of_block_reset rfl rfl, fun _ hp => .of_block_reset hp rfl⟩

/-- Settles O50: each of the five ways keeps the invariant; a completed word because two slots were free. -/
theorem everyStepKeepsTheInvariant : Obligations.EveryStepKeepsTheInvariant := by
  rintro s t ⟨hwf, hinv⟩ h
  have hparams : t.params = s.params := noStepChangesTheParameters s t h
  cases blockStep_of_step h with
  | kept hblock hseen hrst =>
    refine ⟨hparams ▸ hwf, fun ht => ?_⟩
    obtain ⟨hb, hreset⟩ := hinv (hseen ▸ ht)
    rw [hblock, hparams]
    exact ⟨hb, fun htr => hreset (hrst htr)⟩
  | cleared _ hblock => exact .of_block_reset (hparams ▸ hwf) hblock
  | took hseen hrst hobuf hblock =>
    obtain ⟨hb, -⟩ := hinv hseen
    have hlen := hb.1
    rw [hobuf] at hlen
    exact .of_rst_low hwf hparams hrst hblock (hb.of_obuf_pixcnt (Nat.le_of_succ_le hlen))
  | completed _ _ _ hready hrst hblock =>
    obtain ⟨hb, -⟩ := hinv hready.1
    exact .of_rst_low hwf hparams hrst hblock (hb.of_obuf_pixcnt (hready.room _))
  | failed _ _ hillegal hready hrst hblock =>
    obtain ⟨hb, -⟩ := hinv hready.1
    exact .of_rst_low hwf hparams hrst hblock (hb.of_error hillegal)

/-! ### The status registers -/

/-- Settles O47: each piece of the reset state evaluates to its value in R33's table. -/
theorem resetValues : Obligations.ResetValues := by
  exact ⟨rfl, rfl, rfl, rfl, rfl, rfl, rfl⟩

/-- Settles O43: the move reads the register through ReadReg and records it. -/
theorem statusReadReturnsTheRegister : Obligations.StatusReadReturnsTheRegister := by
  intro s idx ms hseen hmoves
  have hread : readMove idx (s.withMoves ms) = .next ((s.withMoves ms).recordRead idx) := by
    simp [readMove, hseen]
  rw [step_cons hmoves]
  exact hread

/-- OUT_COUNT is the occupancy while 8 bits hold it (R28, R30). -/
theorem Block.outCount_toNat {b : Block} (h : b.obuf.length ≤ 255) : b.outCount.toNat = b.obuf.length := by
  rw [Block.outCount, BitVec.toNat_ofNat, Nat.mod_eq_of_lt (by omega)]

/-- STATUS as R28's formula, OUT_COUNT being 8 bits wide: no field is shifted out of the word. -/
theorem Block.status_toNat (b : Block) :
    b.status.toNat = (b.outCount.toNat <<< 16) ||| (b.ecode.toNat <<< 8) ||| b.err.toNat := by
  have hcount := b.outCount.isLt
  have hecode := b.ecode.isLt
  have herr := Bool.toNat_lt b.err
  simp only [Block.status, BitVec.toNat_or, BitVec.toNat_shiftLeft, BitVec.toNat_setWidth, BitVec.toNat_ofBool,
    Nat.shiftLeft_eq]
  congr 1
  · congr 1 <;> omega
  · omega

/-- Bit i of STATUS: OUT_COUNT from bit 16, ECODE from bit 8, ERR at bit 0 (R28). -/
theorem Block.status_getLsbD (b : Block) {i : Nat} (hi : i < 32) :
    b.status.getLsbD i =
      ((!decide (i < 16) && b.outCount.getLsbD (i - 16)) || (!decide (i < 8) && b.ecode.getLsbD (i - 8)) ||
        (decide (i = 0) && b.err)) := by
  simp [Block.status, hi]

/-- A field of STATUS, bit by bit. -/
theorem Block.status_field_getLsbD (b : Block) {k n i : Nat} (hi : i < n) (hk : k + n ≤ 32) :
    (b.status.extractLsb' k n).getLsbD i =
      ((!decide (k + i < 16) && b.outCount.getLsbD (k + i - 16)) ||
        (!decide (k + i < 8) && b.ecode.getLsbD (k + i - 8)) || (decide (k + i = 0) && b.err)) := by
  rw [BitVec.getLsbD_extractLsb', b.status_getLsbD (by omega), decide_eq_true hi, Bool.true_and]

/-- Bits 7:1 of STATUS lie between ERR and ECODE (R28). -/
theorem Block.status_low_reserved (b : Block) : b.status.extractLsb' 1 7 = 0#7 := by
  refine BitVec.eq_of_getLsbD_eq fun i hi => ?_
  rw [b.status_field_getLsbD hi (by omega)]
  simp [show 1 + i < 16 by omega, show 1 + i < 8 by omega]

/-- Bits 15:8 of STATUS are ECODE (R28). -/
theorem Block.status_ecode (b : Block) : b.status.extractLsb' 8 8 = b.ecode := by
  refine BitVec.eq_of_getLsbD_eq fun i hi => ?_
  rw [b.status_field_getLsbD hi (by omega)]
  simp [show 8 + i < 16 by omega]

/-- Bits 23:16 of STATUS are OUT_COUNT (R28): ECODE has no bit there. -/
theorem Block.status_outCount (b : Block) : b.status.extractLsb' 16 8 = b.outCount := by
  refine BitVec.eq_of_getLsbD_eq fun i hi => ?_
  rw [b.status_field_getLsbD hi (by omega), b.ecode.getLsbD_of_ge (16 + i - 8) (by omega)]
  simp

/-- Bits 31:24 of STATUS lie above OUT_COUNT (R28). -/
theorem Block.status_high_reserved (b : Block) : b.status.extractLsb' 24 8 = 0#8 := by
  refine BitVec.eq_of_getLsbD_eq fun i hi => ?_
  rw [b.status_field_getLsbD hi (by omega), b.outCount.getLsbD_of_ge (24 + i - 16) (by omega),
    b.ecode.getLsbD_of_ge (24 + i - 8) (by omega)]
  simp

/-- Settles O44: the fields of STATUS, and R28's formula while OUT_COUNT is the occupancy. -/
theorem statusLayout : Obligations.StatusLayout := by
  refine ⟨rfl, fun b => ⟨?_, b.status_low_reserved, b.status_ecode, b.status_high_reserved, fun hlen => ⟨?_, ?_⟩⟩⟩
  · rw [b.status_getLsbD (by decide)]
    simp
  · rw [b.status_outCount, Block.outCount_toNat hlen]
  · rw [b.status_toNat, Block.outCount_toNat hlen]

/-! ### The agents' records -/

/-- s with other records of the consumer and the reader (log entry 11). -/
def State.withRecords (s : State) (taken : List Element) (reads : List (RegIndex × Word)) : State :=
  { s with env := { s.env with taken := taken, reads := reads } }

section
variable (s : State) (taken : List Element) (reads : List (RegIndex × Word))

@[simp] theorem State.withRecords_resetSeen : (s.withRecords taken reads).resetSeen = s.resetSeen := rfl
@[simp] theorem State.withRecords_env :
    (s.withRecords taken reads).env = { s.env with taken := taken, reads := reads } := rfl
@[simp] theorem State.withRecords_cmdReady : (s.withRecords taken reads).cmdReady = s.cmdReady := rfl
@[simp] theorem State.withRecords_outValid : (s.withRecords taken reads).outValid = s.outValid := rfl
end

/-- A command step does not see the records if its act does not. -/
theorem commandStep_withRecords {act : State → State} {s t : State} {taken : List Element}
    {reads : List (RegIndex × Word)}
    (hact : (act s.accept).withRecords taken reads = act (s.accept.withRecords taken reads))
    (h : commandStep act s = .next t) :
    commandStep act (s.withRecords taken reads) = .next (t.withRecords taken reads) := by
  obtain ⟨hseen, ⟨hready, rfl⟩ | ⟨hready, herr, rfl⟩ | ⟨hc, rfl⟩⟩ := commandStep_cases h
  case inl => simp [commandStep, hseen, hready]
  case inr.inl =>
    have hrst := (s.cmdReady_iff.1 hready).1
    exact commandStep_of_terminal (s := s.withRecords taken reads) hseen hrst herr act
  case inr.inr =>
    rw [hact]
    exact commandStep_of_completing (s := s.withRecords taken reads) hc act

/-- A command move does not see the records: it only decodes the word on offer and runs its command step. -/
theorem commandMove_withRecords {s t : State} (taken : List Element) (reads : List (RegIndex × Word))
    (h : commandMove s = .next t) :
    commandMove (s.withRecords taken reads) = .next (t.withRecords taken reads) := by
  cases hcmds : s.env.cmds with
  | nil =>
    simp only [commandMove, hcmds] at h
    cases h
    simp [commandMove, hcmds]
  | cons w ws =>
    have hcmds' : (s.withRecords taken reads).env.cmds = w :: ws := hcmds
    cases hd : decode w with
    | ok i =>
      rw [commandMove_ok hcmds hd, exec_eq] at h
      rw [commandMove_ok hcmds' hd, exec_eq]
      exact commandStep_withRecords (by simp only [State.complete_eq]; rfl) h
    | error x =>
      rw [commandMove_error hcmds hd] at h
      rw [commandMove_error hcmds' hd]
      exact commandStep_withRecords rfl h

/-- A Take where OBUF has a head and `rst` is deasserted (R43). -/
theorem takeMove_of_cons {s : State} {e : Element} {rest : List Element} (hseen : s.resetSeen = true)
    (hrst : s.env.rst = false) (hobuf : s.block.obuf = e :: rest) :
    takeMove s = .next { s with
      block := { s.block with obuf := rest }, env := { s.env with taken := s.env.taken ++ [e] } } := by
  have hvalid : s.outValid = true := by simp [State.outValid, hrst, hobuf]
  simp [takeMove, hseen, hvalid, s.takeHead_cons e hobuf]

/-- A Take adds to whatever the consumer's record is, and does the rest the same. -/
theorem takeMove_withRecords {s t : State} (taken : List Element) (reads : List (RegIndex × Word))
    (h : takeMove s = .next t) :
    ∃ taken', takeMove (s.withRecords taken reads) = .next (t.withRecords taken' reads) := by
  obtain ⟨hseen, ⟨hv, rfl⟩ | ⟨e, rest, hrst, hobuf, rfl⟩⟩ := takeMove_cases h
  · exact ⟨taken, by simp [takeMove, hseen, hv]⟩
  · exact ⟨taken ++ [e], takeMove_of_cons (s := s.withRecords taken reads) hseen hrst hobuf⟩

/-- Every move happens with any records, and ends in the same state but for the records. -/
theorem runMove_withRecords {m : Move} {s t : State} (taken : List Element) (reads : List (RegIndex × Word))
    (h : runMove m s = .next t) :
    ∃ taken' reads', runMove m (s.withRecords taken reads) = .next (t.withRecords taken' reads') := by
  cases m with
  | command => exact ⟨taken, reads, commandMove_withRecords taken reads h⟩
  | take =>
    obtain ⟨taken', h'⟩ := takeMove_withRecords taken reads h
    exact ⟨taken', reads, h'⟩
  | read idx =>
    obtain ⟨hseen, rfl⟩ := readMove_cases h
    refine ⟨taken, reads ++ [(idx, s.block.readReg idx)], ?_⟩
    simp [runMove, readMove, hseen, State.recordRead, State.withRecords]
  | assertReset => cases h; exact ⟨taken, reads, rfl⟩
  | releaseReset => cases h; exact ⟨taken, reads, rfl⟩

/-- A step happens with any records, and ends in the same state but for the records (R22). -/
theorem step_withRecords {s t : State} (taken : List Element) (reads : List (RegIndex × Word))
    (h : step s = .next t) :
    ∃ taken' reads', step (s.withRecords taken reads) = .next (t.withRecords taken' reads') := by
  obtain ⟨hnil, rfl⟩ | ⟨m, ms, hmoves, hm⟩ := step_cases h
  · exact ⟨taken, reads, step_nil hnil⟩
  · rw [step_cons (s := s.withRecords taken reads) hmoves]
    exact runMove_withRecords taken reads hm

/-- Settles O52: the two next states differ in the records alone. -/
theorem recordsDoNotReachTheBlock : Obligations.RecordsDoNotReachTheBlock := by
  intro s t taken reads h
  obtain ⟨taken', reads', h'⟩ := step_withRecords taken reads h
  exact ⟨t.withRecords taken' reads', h', rfl, rfl, rfl, rfl, rfl, rfl⟩

end Sys2Proof.Machine

/-! PROOFS of the memory family: the output data, the Take, what a step does to OBUF, and the element stream of a run
(R41 to R54). -/

namespace Sys2Proof.Machine

/-! ### The output channel -/

/-- A B8 element's bits 15:8 on `out_data` lie above its byte (R46). -/
theorem Element.b8_data_high (x : Byte) : (Element.b8 x).data.extractLsb' 8 8 = 0#8 := by
  refine BitVec.eq_of_getLsbD_eq fun i hi => ?_
  rw [BitVec.getLsbD_extractLsb', Element.data, BitVec.getLsbD_setWidth, x.getLsbD_of_ge (8 + i) (by omega)]
  simp

/-- A B8 element's bits 7:0 on `out_data` are its byte (R46). -/
theorem Element.b8_data_low (x : Byte) : (Element.b8 x).data.extractLsb' 0 8 = x := by
  refine BitVec.eq_of_getLsbD_eq fun i hi => ?_
  rw [BitVec.getLsbD_extractLsb', Element.data, BitVec.getLsbD_setWidth]
  simp [hi, show i < 16 by omega]

/-- Settles O42: the byte is widened to the port, the half word fills it. -/
theorem outputDataOfAnElement : Obligations.OutputDataOfAnElement := by
  refine ⟨fun x => ⟨rfl, ?_, Element.b8_data_high x, Element.b8_data_low x⟩, fun v => ⟨rfl, rfl⟩⟩
  exact BitVec.toNat_setWidth_of_le (by decide)

/-- `out_valid` as R41 writes it. -/
theorem State.outValid_iff (s : State) :
    s.outValid = true ↔ 0 < s.block.obuf.length ∧ s.env.rst = false := by
  simp [State.outValid, List.length_pos_iff, and_comm]

/-- The output ports present the head of OBUF while `out_valid` = 1 (R43). -/
theorem State.outHead_of_cons {s : State} {e : Element} {rest : List Element} (hobuf : s.block.obuf = e :: rest)
    (hvalid : s.outValid = true) : s.outHead = some e := by
  simp [State.outHead, hvalid, hobuf]

/-- A Take that is not enabled changes nothing (log entry 7). -/
theorem takeMove_of_not_valid {s : State} (hseen : s.resetSeen = true) (hvalid : s.outValid = false) :
    takeMove s = .next s := by
  simp [takeMove, hseen, hvalid]

/-- Settles O41: the Take's move leaves the schedule, then the Take is enabled or not. -/
theorem takeDeliversTheHead : Obligations.TakeDeliversTheHead := by
  intro s ms hseen hmoves
  refine ⟨s.outValid_iff, fun hvalid => ?_, fun e rest hobuf hrst => ?_⟩
  · rw [step_cons hmoves]
    exact takeMove_of_not_valid (s := s.withMoves ms) hseen hvalid
  · have hvalid : s.outValid = true := s.outValid_iff.2 ⟨by simp [hobuf], hrst⟩
    have hhead := State.outHead_of_cons hobuf hvalid
    refine ⟨hvalid, by rw [State.outKind, hhead]; rfl, by rw [State.outData, hhead]; rfl, ?_⟩
    rw [step_cons hmoves]
    exact takeMove_of_cons (s := s.withMoves ms) hseen hrst hobuf

/-! ### What a step can do to OBUF -/

/-- A command move leaves OBUF as it is or appends all the elements of the word on offer (R42, R50). -/
theorem commandMove_obuf {s t : State} (h : commandMove s = .next t) :
    t.block.obuf = s.block.obuf ∨
      ∃ w ws i, s.env.cmds = w :: ws ∧ decode w = .ok i ∧ t.block.obuf = s.block.obuf ++ elems s.params i := by
  obtain ⟨-, rfl⟩ | ⟨w, ws, hoffer, -, ⟨-, rfl⟩ | ⟨-, -, rfl⟩ | ⟨-, i, hd, rfl⟩ | ⟨-, -, rfl⟩⟩ := commandMove_cases h
  case inl => exact .inl rfl
  case inr.inl => exact .inl rfl
  case inr.inr.inl => exact .inl rfl
  case inr.inr.inr.inl =>
    refine .inr ⟨w, ws, i, hoffer, hd, ?_⟩
    rw [State.complete_eq, State.accept_block]
  case inr.inr.inr.inr => exact .inl rfl

/-- A Take leaves OBUF as it is or gives its head to the consumer (R43). -/
theorem takeMove_obuf {s t : State} (h : takeMove s = .next t) :
    t.block.obuf = s.block.obuf ∨
      ∃ e, s.block.obuf = e :: t.block.obuf ∧ t.env.taken = s.env.taken ++ [e] := by
  obtain ⟨-, ⟨-, rfl⟩ | ⟨e, rest, -, hobuf, rfl⟩⟩ := takeMove_cases h
  · exact .inl rfl
  · exact .inr ⟨e, hobuf, rfl⟩

/-- Settles O40: each of the five moves, on the state without that move. -/
theorem obufChangesOnlyWhole : Obligations.ObufChangesOnlyWhole := by
  intro s t h
  obtain ⟨-, rfl⟩ | ⟨m, ms, hmoves, hm⟩ := step_cases h
  · exact .inl rfl
  cases m with
  | command =>
    obtain hsame | ⟨w, ws, i, hoffer, hd, hobuf⟩ := commandMove_obuf hm
    · exact .inl hsame
    · exact .inr (.inr (.inr ⟨ms, w, ws, i, hmoves, hoffer, hd, hobuf⟩))
  | take =>
    obtain hsame | htook := takeMove_obuf hm
    · exact .inl hsame
    · exact .inr (.inr (.inl ⟨⟨ms, hmoves⟩, htook⟩))
  | read idx =>
    obtain ⟨-, rfl⟩ := readMove_cases hm
    exact .inl rfl
  | assertReset => cases hm; exact .inr (.inl ⟨⟨ms, hmoves⟩, rfl⟩)
  | releaseReset => cases hm; exact .inl rfl

/-! ### The block as a function of the accepted words

A Take only moves an element from OBUF to the consumer. So the block whose buffer is all it ever produced depends on the
accepted words alone: it is their left fold (R45). -/

/-- What the block makes of an accepted word (R90): nothing in the terminal state, its elements and its count if the
word is legal, the error entry if it is not. -/
def Block.acceptWord (p : Params) (b : Block) (w : Word) : Block :=
  if b.err = true then b
  else if legalWord w = true then { b with obuf := b.obuf ++ elemsOfWord p w, pixcnt := b.pixcnt + 1 }
  else { b with err := true, ecode := codeInvalidCmd, errword := w }

theorem Block.acceptWord_of_err {b : Block} (p : Params) (w : Word) (h : b.err = true) : b.acceptWord p w = b :=
  if_pos h

theorem Block.acceptWord_of_legal {b : Block} (p : Params) {w : Word} (h : b.err = false) (hw : legalWord w = true) :
    b.acceptWord p w = { b with obuf := b.obuf ++ elemsOfWord p w, pixcnt := b.pixcnt + 1 } := by
  simp [Block.acceptWord, h, hw]

theorem Block.acceptWord_of_illegal {b : Block} (p : Params) {w : Word} (h : b.err = false)
    (hw : legalWord w = false) :
    b.acceptWord p w = { b with err := true, ecode := codeInvalidCmd, errword := w } := by
  simp [Block.acceptWord, h, hw]

/-- In the terminal state the accepted words change nothing (R184). -/
theorem Block.foldl_acceptWord_of_err {b : Block} (p : Params) (h : b.err = true) (ws : List Word) :
    ws.foldl (Block.acceptWord p) b = b := by
  induction ws with
  | nil => rfl
  | cons w ws ih => rw [List.foldl_cons, Block.acceptWord_of_err p w h, ih]

/-- What the block b has become, with ERR = 0 before, by the words ws (R45, R182, R184). -/
structure Block.Processed (p : Params) (b : Block) (ws : List Word) (b' : Block) : Prop where
  obuf : b'.obuf = b.obuf ++ elementStream p ws
  pixcnt : b'.pixcnt = b.pixcnt + BitVec.ofNat 32 (completedWords ws).length
  all_completed : b'.err = false → completedWords ws = ws
  first_illegal : b'.err = true → b'.ecode = 0x01#8 ∧ ws.find? (fun w => !legalWord w) = some b'.errword

theorem completedWords_cons_legal {w : Word} (ws : List Word) (hw : legalWord w = true) :
    completedWords (w :: ws) = w :: completedWords ws :=
  List.takeWhile_cons_of_pos hw

theorem completedWords_cons_illegal {w : Word} (ws : List Word) (hw : legalWord w = false) :
    completedWords (w :: ws) = [] :=
  List.takeWhile_cons_of_neg (by simp [hw])

/-- A legal word adds its elements and its count in front of what the words after it do. -/
theorem Block.Processed.cons_legal {p : Params} {b b' : Block} {w : Word} {ws : List Word} (h : b.err = false)
    (hw : legalWord w = true) (hrest : (b.acceptWord p w).Processed p ws b') : b.Processed p (w :: ws) b' := by
  rw [Block.acceptWord_of_legal p h hw] at hrest
  obtain ⟨hobuf, hpixcnt, hall, hfirst⟩ := hrest
  have hcompleted := completedWords_cons_legal ws hw
  refine ⟨?_, ?_, fun herr => by rw [hcompleted, hall herr], fun herr => ?_⟩
  · rw [hobuf, elementStream, elementStream, hcompleted, List.flatMap_cons, List.append_assoc]
  · rw [hpixcnt, hcompleted, List.length_cons, Nat.add_comm, BitVec.ofNat_add, BitVec.add_assoc]
    rfl
  · rw [List.find?_cons_of_neg (by simp [hw])]
    exact hfirst herr

/-- After an illegal word no word completes. -/
theorem Block.processed_cons_illegal (p : Params) {b : Block} {w : Word} (ws : List Word)
    (hw : legalWord w = false) :
    b.Processed p (w :: ws) { b with err := true, ecode := codeInvalidCmd, errword := w } := by
  have hcompleted := completedWords_cons_illegal ws hw
  refine ⟨by simp [elementStream, hcompleted], by simp [hcompleted], fun herr => (nomatch herr), fun _ => ?_⟩
  exact ⟨rfl, List.find?_cons_of_pos (by simp [hw])⟩

/-- The accepted words from ERR = 0: those before the first illegal one complete, that one raises the error, and the
rest is discarded. -/
theorem Block.processed_foldl (p : Params) (ws : List Word) {b : Block} (h : b.err = false) :
    b.Processed p ws (ws.foldl (Block.acceptWord p) b) := by
  induction ws generalizing b with
  | nil => exact ⟨by simp [elementStream, completedWords], by simp [completedWords], fun _ => rfl, by simp [h]⟩
  | cons w ws ih =>
    rw [List.foldl_cons]
    cases hw : legalWord w with
    | true => exact .cons_legal h hw (ih (by rw [Block.acceptWord_of_legal p h hw]; exact h))
    | false =>
      rw [Block.acceptWord_of_illegal p h hw, Block.foldl_acceptWord_of_err p rfl]
      exact Block.processed_cons_illegal p ws hw

/-! ### The machine's steps follow it -/

/-- The block with everything it has produced in its buffer: what the consumer has taken, and what is pending. -/
def State.ledger (s : State) : Block := { s.block with obuf := s.env.taken ++ s.block.obuf }

/-- From s to t the words ws have left the offer, and the ledger is what the block makes of them. -/
structure State.Accepts (s t : State) (ws : List Word) : Prop where
  cmds : s.env.cmds = ws ++ t.env.cmds
  ledger : t.ledger = ws.foldl (Block.acceptWord s.params) s.ledger

/-- Nothing accepted, the offer and the ledger the same. -/
theorem State.Accepts.nil {s t : State} (hcmds : t.env.cmds = s.env.cmds) (hledger : t.ledger = s.ledger) :
    s.Accepts t [] :=
  ⟨hcmds.symm, hledger⟩

/-- One word accepted. -/
theorem State.Accepts.one {s t : State} {w : Word} {ws : List Word} (hoffer : s.env.cmds = w :: ws)
    (hcmds : t.env.cmds = s.env.cmds.tail) (hledger : t.ledger = s.ledger.acceptWord s.params w) :
    s.Accepts t [w] :=
  ⟨by rw [hcmds, hoffer]; rfl, hledger⟩

/-- What is accepted from s to u and then from u to t is accepted from s to t, in that order. -/
theorem State.Accepts.trans {s u t : State} {ws ws' : List Word} (h : s.Accepts u ws) (hp : u.params = s.params)
    (h' : u.Accepts t ws') : s.Accepts t (ws ++ ws') :=
  ⟨by rw [h.cmds, h'.cmds, List.append_assoc], by rw [h'.ledger, h.ledger, hp, List.foldl_append]⟩

/-- The elements of a word that decodes (R88). -/
theorem elemsOfWord_of_decode_ok {w : Word} {i : Instr} (p : Params) (h : decode w = .ok i) :
    elemsOfWord p w = elems p i := by
  simp only [elemsOfWord, h]

@[simp] theorem State.complete_env (s : State) (es : List Element) : (s.complete es).env = s.env := by
  rw [State.complete_eq]

/-- A command move accepts the word on offer or nothing. -/
theorem commandMove_accepts {s t : State} (h : commandMove s = .next t) : ∃ ws, s.Accepts t ws := by
  obtain ⟨-, rfl⟩ | ⟨w, ws, hoffer, -, ⟨-, rfl⟩ | ⟨-, herr, rfl⟩ | ⟨hc, i, hd, rfl⟩ | ⟨hc, ⟨x, hd⟩, rfl⟩⟩ :=
    commandMove_cases h
  case inl => exact ⟨[], .nil rfl rfl⟩
  case inr.inl => exact ⟨[], .nil rfl rfl⟩
  case inr.inr.inl =>
    have herr : s.ledger.err = true := herr
    exact ⟨[w], .one hoffer rfl (Block.acceptWord_of_err _ w herr).symm⟩
  case inr.inr.inr.inl =>
    have herr : s.ledger.err = false := hc.2.2.1
    refine ⟨[w], .one hoffer (by rw [State.complete_env, State.accept_env]) ?_⟩
    rw [Block.acceptWord_of_legal _ herr (legalWord_of_decode_ok hd), elemsOfWord_of_decode_ok _ hd,
      State.complete_eq]
    simp [State.ledger]
  case inr.inr.inr.inr =>
    have herr : s.ledger.err = false := hc.2.2.1
    exact ⟨[w], .one hoffer rfl (Block.acceptWord_of_illegal _ herr (legalWord_of_decode_error hd)).symm⟩

/-- A Take keeps the ledger: the head goes from the front of OBUF to the end of what was taken (R43). -/
theorem takeMove_accepts {s t : State} (h : takeMove s = .next t) : s.Accepts t [] := by
  obtain ⟨-, ⟨-, rfl⟩ | ⟨e, rest, -, hobuf, rfl⟩⟩ := takeMove_cases h
  · exact .nil rfl rfl
  · exact .nil rfl (by simp [State.ledger, hobuf])

/-- Every move but the reset step follows the accepted words. -/
theorem runMove_accepts {m : Move} {s t : State} (hm : m ≠ .assertReset) (h : runMove m s = .next t) :
    ∃ ws, s.Accepts t ws := by
  cases m with
  | command => exact commandMove_accepts h
  | take => exact ⟨[], takeMove_accepts h⟩
  | read idx =>
    obtain ⟨-, rfl⟩ := readMove_cases h
    exact ⟨[], .nil rfl rfl⟩
  | assertReset => exact absurd rfl hm
  | releaseReset => cases h; exact ⟨[], .nil rfl rfl⟩

/-- No move changes the schedule. -/
theorem runMove_moves {m : Move} {s t : State} (h : runMove m s = .next t) : t.env.moves = s.env.moves := by
  cases m with
  | command =>
    obtain ⟨-, rfl⟩ | ⟨w, ws, -, -, ⟨-, rfl⟩ | ⟨-, -, rfl⟩ | ⟨-, i, -, rfl⟩ | ⟨-, -, rfl⟩⟩ := commandMove_cases h
    case inl => rfl
    case inr.inl => rfl
    case inr.inr.inl => rfl
    case inr.inr.inr.inl => rw [State.complete_env, State.accept_env]
    case inr.inr.inr.inr => rfl
  | take =>
    obtain ⟨-, ⟨-, rfl⟩ | ⟨e, rest, -, -, rfl⟩⟩ := takeMove_cases h
    · rfl
    · rfl
  | read idx =>
    obtain ⟨-, rfl⟩ := readMove_cases h
    rfl
  | assertReset => cases h; rfl
  | releaseReset => cases h; rfl

/-- A step uses up the next move of the schedule, if there is one (R48). -/
theorem step_moves {s t : State} (h : step s = .next t) : t.env.moves = s.env.moves.tail := by
  obtain ⟨hnil, rfl⟩ | ⟨m, ms, hmoves, hm⟩ := step_cases h
  · rw [hnil]; rfl
  · rw [runMove_moves hm, hmoves]; rfl

/-- A step that is no reset step follows the accepted words. -/
theorem step_accepts {s t : State} (hreset : .assertReset ∉ s.env.moves.take 1) (h : step s = .next t) :
    ∃ ws, s.Accepts t ws := by
  obtain ⟨-, rfl⟩ | ⟨m, ms, hmoves, hm⟩ := step_cases h
  · exact ⟨[], .nil rfl rfl⟩
  · have hne : m ≠ .assertReset := by
      rintro rfl
      simp [hmoves] at hreset
    obtain ⟨ws, hcmds, hledger⟩ := runMove_accepts hne hm
    exact ⟨ws, hcmds, hledger⟩

/-- A run without a reset step follows the accepted words. -/
theorem run_accepts {k : Nat} {s t : State} (hreset : .assertReset ∉ s.env.moves.take k)
    (h : Host.Core.run Sys2Proof.core k s = .next t) : ∃ ws, s.Accepts t ws := by
  induction k generalizing s with
  | zero => cases h; exact ⟨[], .nil rfl rfl⟩
  | succ k ih =>
    obtain ⟨u, hstep, hrun⟩ := run_succ_cases h
    rw [Nat.add_comm, List.take_add, List.mem_append, not_or, List.drop_one] at hreset
    obtain ⟨hfirst, hrest⟩ := hreset
    obtain ⟨ws, hsu⟩ := step_accepts hfirst hstep
    rw [← step_moves hstep] at hrest
    obtain ⟨ws', hut⟩ := ih hrest hrun
    exact ⟨ws ++ ws', hsu.trans (noStepChangesTheParameters s u hstep) hut⟩

/-- Settles O53: the run is the fold of the accepted words over the ledger, and the fold from ERR = 0 is known. -/
theorem elementStreamOfARun : Obligations.ElementStreamOfARun := by
  intro k s t herr hreset hrun
  obtain ⟨ws, hcmds, hledger⟩ := run_accepts hreset hrun
  have hprocessed := Block.processed_foldl s.params ws (b := s.ledger) herr
  rw [← hledger] at hprocessed
  obtain ⟨hobuf, hpixcnt, hall, hfirst⟩ := hprocessed
  exact ⟨ws, hcmds, hobuf, hpixcnt, hall, hfirst⟩

/-! ### A drained run -/

/-- A legal word decodes to the command of its format with the fields of its operands (R66). -/
theorem decode_of_legalWord {w : Word} (h : legalWord w = true) :
    decode w =
      .ok (instrOf (formatOfCode (fieldFmt w)) (byteOrderOfBit (fieldBo w)) (fieldR w) (fieldG w) (fieldB w)) := by
  simp [decode, (legalWord_iff_fieldRsv w).1 h]

/-- RGB565_8BIT is the format of two elements (R88). -/
theorem elems_instrOf_length (p : Params) (fmt : OutputFormat) (bo : ByteOrder) (r g b : Byte) :
    (elems p (instrOf fmt bo r g b)).length = if fmt = .rgb565Bytes then 2 else 1 := by
  cases fmt <;> rfl

/-- Code 3 is RGB565_8BIT (R62). -/
theorem formatOfCode_eq_rgb565Bytes_iff (f : BitVec 2) : formatOfCode f = .rgb565Bytes ↔ f = 3#2 := by
  revert f; decide

/-- The number of elements of a legal word (R88). -/
theorem elemsOfWord_length {w : Word} (p : Params) (h : legalWord w = true) :
    (elemsOfWord p w).length = if fieldFmt w = 3#2 then 2 else 1 := by
  rw [elemsOfWord_of_decode_ok p (decode_of_legalWord h), elems_instrOf_length]
  simp only [formatOfCode_eq_rgb565Bytes_iff]

/-- The elements of words that have n elements each. -/
theorem flatMap_elemsOfWord_length {p : Params} {ws : List Word} {n : Nat}
    (h : ∀ w ∈ ws, (elemsOfWord p w).length = n) : (ws.flatMap (elemsOfWord p)).length = n * ws.length := by
  rw [List.length_flatMap, List.map_congr_left h, List.map_const', List.sum_replicate, smul_eq_mul, Nat.mul_comm]

/-- Settles O55: the stream of a drained run is taken whole, and without an error all words completed. -/
theorem drainedRunDeliversEverything : Obligations.DrainedRunDeliversEverything := by
  intro p moves ws k t hreset hrun ⟨hempty, hoffer⟩ herr
  obtain ⟨ws', hcmds, hstream, hpixcnt, hall, -⟩ :=
    elementStreamOfARun k _ t rfl (fun hmem => hreset (List.mem_of_mem_take hmem)) hrun
  have hws : ws' = ws := by simpa [hoffer] using hcmds.symm
  subst hws
  have hcompleted := hall herr
  have htaken : t.env.taken = ws'.flatMap (elemsOfWord p) := by
    have hstream : t.env.taken ++ t.block.obuf = elementStream p ws' := hstream
    rwa [hempty, List.append_nil, elementStream, hcompleted] at hstream
  have hlegal : ∀ w ∈ ws', legalWord w = true := List.takeWhile_eq_self_iff.1 hcompleted
  refine ⟨⟨herr, ?_⟩, htaken, fun hfmt => ?_, fun hfmt => ?_⟩
  · rw [hpixcnt, hcompleted]
    exact BitVec.zero_add _
  · rw [htaken, flatMap_elemsOfWord_length fun w hw => (elemsOfWord_length p (hlegal w hw)).trans (if_neg (hfmt w hw)),
      Nat.one_mul]
  · rw [htaken, flatMap_elemsOfWord_length fun w hw => (elemsOfWord_length p (hlegal w hw)).trans (if_pos (hfmt w hw))]

end Sys2Proof.Machine

/-! PROOFS of the encoding family: a word as its fields, the decoder against the encoder and against R66's table, the
placed word, and the assembler (R60 to R69). -/

namespace Sys2Proof.Machine

/-! ### A word is its fields -/

/-- The word with the fields FMT, BO, RSV, R, G and B, from the high bits down (R60). -/
def wordOfFields (f : BitVec 2) (o : BitVec 1) (z : BitVec 5) (r g b : Byte) : Word := f ++ o ++ z ++ r ++ g ++ b

section
variable (f : BitVec 2) (o : BitVec 1) (z : BitVec 5) (r g b : Byte)

@[simp] theorem fieldFmt_wordOfFields : fieldFmt (wordOfFields f o z r g b) = f := by
  rw [fieldFmt, wordOfFields]
  iterate 5 rw [BitVec.extractLsb'_append_eq_of_le (by decide)]
  exact BitVec.extractLsb'_eq_self

@[simp] theorem fieldBo_wordOfFields : fieldBo (wordOfFields f o z r g b) = o := by
  rw [fieldBo, wordOfFields]
  iterate 4 rw [BitVec.extractLsb'_append_eq_of_le (by decide)]
  exact BitVec.extractLsb'_append_eq_right

@[simp] theorem fieldRsv_wordOfFields : fieldRsv (wordOfFields f o z r g b) = z := by
  rw [fieldRsv, wordOfFields]
  iterate 3 rw [BitVec.extractLsb'_append_eq_of_le (by decide)]
  exact BitVec.extractLsb'_append_eq_right

@[simp] theorem fieldR_wordOfFields : fieldR (wordOfFields f o z r g b) = r := by
  rw [fieldR, wordOfFields]
  iterate 2 rw [BitVec.extractLsb'_append_eq_of_le (by decide)]
  exact BitVec.extractLsb'_append_eq_right

@[simp] theorem fieldG_wordOfFields : fieldG (wordOfFields f o z r g b) = g := by
  rw [fieldG, wordOfFields]
  rw [BitVec.extractLsb'_append_eq_of_le (by decide)]
  exact BitVec.extractLsb'_append_eq_right

@[simp] theorem fieldB_wordOfFields : fieldB (wordOfFields f o z r g b) = b := by
  rw [fieldB, wordOfFields]
  exact BitVec.extractLsb'_append_eq_right

/-- The masks of R66 act on each field. -/
theorem wordOfFields_and (f' : BitVec 2) (o' : BitVec 1) (z' : BitVec 5) (r' g' b' : Byte) :
    wordOfFields f o z r g b &&& wordOfFields f' o' z' r' g' b' =
      wordOfFields (f &&& f') (o &&& o') (z &&& z') (r &&& r') (g &&& g') (b &&& b') := by
  simp only [wordOfFields]
  iterate 5 rw [← BitVec.and_append]
end

/-- The six fields are the whole word: nothing lies between them. -/
theorem wordOfFields_fields (w : Word) :
    wordOfFields (fieldFmt w) (fieldBo w) (fieldRsv w) (fieldR w) (fieldG w) (fieldB w) = w := by
  simp only [wordOfFields, fieldFmt, fieldBo, fieldRsv, fieldR, fieldG, fieldB]
  iterate 5 rw [BitVec.extractLsb'_append_extractLsb'_eq_extractLsb' (by decide)]
  exact BitVec.extractLsb'_eq_self

/-- R60's shifts and ors join the fields, with RSV = 0. -/
theorem encodeFields_eq_wordOfFields (fmt : OutputFormat) (bo : ByteOrder) (r g b : Byte) :
    encodeFields fmt bo r g b = wordOfFields (codeOfFormat fmt) (bitOfByteOrder bo) 0#5 r g b := by
  rw [← (wordOfFields _ _ _ r g b).setWidth_eq, wordOfFields]
  iterate 5 rw [BitVec.setWidth_append_eq_shiftLeft_setWidth_or]
  simp [encodeFields, BitVec.shiftLeft_or_distrib, ← BitVec.shiftLeft_add]

section
variable (fmt : OutputFormat) (bo : ByteOrder) (r g b : Byte)

@[simp] theorem fieldFmt_encodeFields : fieldFmt (encodeFields fmt bo r g b) = codeOfFormat fmt := by
  rw [encodeFields_eq_wordOfFields, fieldFmt_wordOfFields]

@[simp] theorem fieldBo_encodeFields : fieldBo (encodeFields fmt bo r g b) = bitOfByteOrder bo := by
  rw [encodeFields_eq_wordOfFields, fieldBo_wordOfFields]

@[simp] theorem fieldRsv_encodeFields : fieldRsv (encodeFields fmt bo r g b) = 0#5 := by
  rw [encodeFields_eq_wordOfFields, fieldRsv_wordOfFields]

@[simp] theorem fieldR_encodeFields : fieldR (encodeFields fmt bo r g b) = r := by
  rw [encodeFields_eq_wordOfFields, fieldR_wordOfFields]

@[simp] theorem fieldG_encodeFields : fieldG (encodeFields fmt bo r g b) = g := by
  rw [encodeFields_eq_wordOfFields, fieldG_wordOfFields]

@[simp] theorem fieldB_encodeFields : fieldB (encodeFields fmt bo r g b) = b := by
  rw [encodeFields_eq_wordOfFields, fieldB_wordOfFields]
end

/-! ### The codes, and commands by format -/

@[simp] theorem formatOfCode_codeOfFormat (fmt : OutputFormat) : formatOfCode (codeOfFormat fmt) = fmt := by
  cases fmt <;> rfl

@[simp] theorem codeOfFormat_formatOfCode (f : BitVec 2) : codeOfFormat (formatOfCode f) = f := by
  revert f; decide

@[simp] theorem byteOrderOfBit_bitOfByteOrder (bo : ByteOrder) : byteOrderOfBit (bitOfByteOrder bo) = bo := by
  cases bo <;> rfl

@[simp] theorem bitOfByteOrder_byteOrderOfBit (o : BitVec 1) : bitOfByteOrder (byteOrderOfBit o) = o := by
  revert o; decide

/-- Every command is the command of a format with operands (R62). -/
theorem exists_eq_instrOf (i : Instr) : ∃ fmt bo r g b, i = instrOf fmt bo r g b := by
  cases i with
  | q565 bo r g b => exact ⟨.rgb565, bo, r, g, b, rfl⟩
  | q332 bo r g b => exact ⟨.rgb332, bo, r, g, b, rfl⟩
  | qgray bo r g b => exact ⟨.gray8, bo, r, g, b, rfl⟩
  | q565s bo r g b => exact ⟨.rgb565Bytes, bo, r, g, b, rfl⟩

/-- The word of a command is written from its format and its operands (R60). -/
@[simp] theorem encode_instrOf (fmt : OutputFormat) (bo : ByteOrder) (r g b : Byte) :
    encode (instrOf fmt bo r g b) = encodeFields fmt bo r g b := by
  cases fmt <;> rfl

/-- Settles O5: each field read back from the word written from the fields. -/
theorem encodePlacesEveryField : Obligations.EncodePlacesEveryField := by
  intro fmt bo r g b
  rw [encode_instrOf]
  exact ⟨fieldFmt_encodeFields .., fieldBo_encodeFields .., fieldRsv_encodeFields .., fieldR_encodeFields ..,
    fieldG_encodeFields .., fieldB_encodeFields ..⟩

/-! ### Decoding and encoding -/

/-- A word with RSV = 0 decodes to the command of its fields (R66). -/
theorem decode_of_fieldRsv_eq_zero {w : Word} (h : fieldRsv w = 0#5) :
    decode w =
      .ok (instrOf (formatOfCode (fieldFmt w)) (byteOrderOfBit (fieldBo w)) (fieldR w) (fieldG w) (fieldB w)) :=
  decode_of_legalWord ((legalWord_iff_fieldRsv w).2 h)

/-- A word that decodes has RSV = 0, and its command is that of its fields (R64, R66). -/
theorem eq_instrOf_of_decode_ok {w : Word} {i : Instr} (h : decode w = .ok i) :
    fieldRsv w = 0#5 ∧
      i = instrOf (formatOfCode (fieldFmt w)) (byteOrderOfBit (fieldBo w)) (fieldR w) (fieldG w) (fieldB w) := by
  have hrsv := (legalWord_iff_fieldRsv w).1 (legalWord_of_decode_ok h)
  rw [decode_of_fieldRsv_eq_zero hrsv] at h
  exact ⟨hrsv, (Except.ok.inj h).symm⟩

/-- Settles O2: the decoder reads the fields the encoder placed. -/
theorem decodeAfterEncode : Obligations.DecodeAfterEncode := by
  intro i
  obtain ⟨fmt, bo, r, g, b, rfl⟩ := exists_eq_instrOf i
  rw [encode_instrOf, decode_of_fieldRsv_eq_zero (fieldRsv_encodeFields ..)]
  simp

/-- Settles O3: the encoder places the fields the decoder read, and with RSV = 0 they are the whole word. -/
theorem encodeAfterDecode : Obligations.EncodeAfterDecode := by
  intro w i h
  obtain ⟨hrsv, rfl⟩ := eq_instrOf_of_decode_ok h
  rw [encode_instrOf, encodeFields_eq_wordOfFields, codeOfFormat_formatOfCode, bitOfByteOrder_byteOrderOfBit, ← hrsv,
    wordOfFields_fields]

/-! ### R66's table -/

/-- The row of a format: FMT and RSV masked, FMT its code and RSV 0 (R66). -/
def opcodeRow (fmt : OutputFormat) : OpcodeRow :=
  { format := fmt, mask := 0xDF000000#32, pattern := encodeFields fmt .little 0 0 0 }

/-- The table has exactly the row of each format. -/
theorem mem_opcodeTable_iff (x : OpcodeRow) : x ∈ opcodeTable ↔ ∃ fmt, x = opcodeRow fmt := by
  have htable : opcodeTable = [.rgb565, .rgb332, .gray8, .rgb565Bytes].map opcodeRow := by decide
  rw [htable, List.mem_map]
  constructor
  · rintro ⟨fmt, -, rfl⟩
    exact ⟨fmt, rfl⟩
  · rintro ⟨fmt, rfl⟩
    exact ⟨fmt, by cases fmt <;> decide, rfl⟩

/-- The table's mask keeps FMT and RSV and clears the operands. -/
theorem and_mask_eq (w : Word) : w &&& 0xDF000000#32 = wordOfFields (fieldFmt w) 0#1 (fieldRsv w) 0 0 0 := by
  have hmask : 0xDF000000#32 = wordOfFields 3#2 0#1 31#5 0 0 0 := by decide
  have hfmt (f : BitVec 2) : f &&& 3#2 = f := BitVec.and_allOnes
  have hrsv (z : BitVec 5) : z &&& 31#5 = z := BitVec.and_allOnes
  conv_lhs => rw [← wordOfFields_fields w, hmask]
  rw [wordOfFields_and, hfmt, hrsv]
  simp

/-- A row's pattern stands in the words with RSV = 0 and the row's FMT. -/
theorem and_mask_eq_pattern_iff (w : Word) (fmt : OutputFormat) :
    w &&& 0xDF000000#32 = encodeFields fmt .little 0 0 0 ↔ fieldRsv w = 0#5 ∧ formatOfCode (fieldFmt w) = fmt := by
  rw [and_mask_eq, encodeFields_eq_wordOfFields]
  constructor
  · intro h
    exact ⟨by simpa using congrArg fieldRsv h, by simpa using congrArg (formatOfCode ∘ fieldFmt) h⟩
  · rintro ⟨hrsv, rfl⟩
    rw [hrsv, codeOfFormat_formatOfCode]
    rfl

/-- A row hits the words with RSV = 0 and the row's FMT. -/
theorem opcodeRow_hits_iff (w : Word) (fmt : OutputFormat) :
    (opcodeRow fmt).hits w = true ↔ fieldRsv w = 0#5 ∧ formatOfCode (fieldFmt w) = fmt := by
  rw [OpcodeRow.hits, beq_iff_eq]
  exact and_mask_eq_pattern_iff w fmt

/-- BO by its bit in the word (R60, R63). -/
theorem byteOrderOfBit_fieldBo (w : Word) :
    byteOrderOfBit (fieldBo w) = if w.getLsbD 29 then ByteOrder.big else ByteOrder.little := by
  have hbit : fieldBo w = BitVec.ofBool (w.getLsbD 29) := by
    refine BitVec.eq_of_getLsbD_eq fun i hi => ?_
    obtain rfl : i = 0 := by omega
    simp [fieldBo]
  rw [hbit]
  cases w.getLsbD 29 <;> rfl

/-- A word a row's pattern stands in decodes to the command of the row's format with the word's operands (R66). -/
theorem decode_of_and_mask_eq {w : Word} {fmt : OutputFormat}
    (h : w &&& 0xDF000000#32 = encodeFields fmt .little 0 0 0) :
    decode w =
      .ok (instrOf fmt (if w.getLsbD 29 then .big else .little) (fieldR w) (fieldG w) (fieldB w)) := by
  obtain ⟨hrsv, hfmt⟩ := (and_mask_eq_pattern_iff w fmt).1 h
  rw [decode_of_fieldRsv_eq_zero hrsv, hfmt, byteOrderOfBit_fieldBo]

/-- R64's mask finds no bit exactly when RSV = 0. -/
theorem and_reserved_eq_zero_iff (w : Word) : w &&& 0x1F000000#32 = 0#32 ↔ fieldRsv w = 0#5 := by
  rw [← legalWord_iff_fieldRsv, legalWord, beq_iff_eq]

/-- A word with a reserved bit set is rejected with its reserved bits (R64, R66). -/
theorem decode_of_fieldRsv_ne_zero {w : Word} (h : fieldRsv w ≠ 0#5) :
    decode w = .error (.reservedBitsSet (fieldRsv w)) :=
  if_pos h

/-- Settles O4: a row hits the words with RSV = 0 and its FMT, so two rows that hit one word are the row of its FMT. -/
theorem decoderFollowsTheTable : Obligations.DecoderFollowsTheTable := by
  intro w
  refine ⟨decode_of_and_mask_eq (fmt := .rgb565), decode_of_and_mask_eq (fmt := .rgb332),
    decode_of_and_mask_eq (fmt := .gray8), decode_of_and_mask_eq (fmt := .rgb565Bytes), fun hrsv => ?_,
    fun x hx y hy hxw hyw => ?_, ?_⟩
  · exact decode_of_fieldRsv_ne_zero fun h => hrsv ((and_reserved_eq_zero_iff w).2 h)
  · obtain ⟨fmt, rfl⟩ := (mem_opcodeTable_iff x).1 hx
    obtain ⟨fmt', rfl⟩ := (mem_opcodeTable_iff y).1 hy
    rw [← ((opcodeRow_hits_iff w fmt).1 hxw).2, ← ((opcodeRow_hits_iff w fmt').1 hyw).2]
  · rw [and_reserved_eq_zero_iff]
    constructor
    · intro hrsv
      exact ⟨_, (mem_opcodeTable_iff _).2 ⟨_, rfl⟩, (opcodeRow_hits_iff w _).2 ⟨hrsv, rfl⟩⟩
    · rintro ⟨x, hx, hxw⟩
      obtain ⟨fmt, rfl⟩ := (mem_opcodeTable_iff x).1 hx
      exact ((opcodeRow_hits_iff w fmt).1 hxw).1

/-! ### The placed word -/

/-- All 32 bits of a word are the word (R44, R67). -/
theorem wordOfTable_toNat (w : Word) : wordOfTable 32 w.toNat = w := by
  rw [wordOfTable, Nat.mod_eq_of_lt w.isLt, BitVec.ofNat_toNat, BitVec.setWidth_eq]

/-- A word on offer with its command move next runs the command it decodes to. -/
theorem step_offerNext {w : Word} {i : Instr} (s : State) (h : decode w = .ok i) :
    step (s.offerNext w) = exec i { s with env := { s.env with cmds := w :: s.env.cmds } } := by
  have hmoves : (s.offerNext w).env.moves = .command :: s.env.moves := rfl
  rw [step_cons hmoves]
  exact commandMove_ok (s := (s.offerNext w).withMoves s.env.moves) rfl h

/-- Settles O31: the placed word is the command's word, which decodes to the command. -/
theorem placedWordRunsNext : Obligations.PlacedWordRunsNext := by
  intro s i
  have hdecode := decodeAfterEncode i
  refine ⟨?_, ?_⟩
  · rw [decodeTableWord, wordOfTable_toNat, hdecode]
  · rw [State.withFetchWord, wordOfTable_toNat, step_offerNext s hdecode]

/-! ### The assembler -/

/-- A line out of its range is refused (R68). -/
theorem assembleLine_of_not_wellFormed {l : AsmLine} (h : asmWellFormed l = false) : assembleLine l = none := by
  simp [assembleLine, h]

/-- The word of a command line in range (R68). -/
theorem assembleLine_op (fmt : OutputFormat) (bo : ByteOrder) {r g b : Nat} (hr : r ≤ 255) (hg : g ≤ 255)
    (hb : b ≤ 255) : assembleLine (.op fmt bo r g b) =
      some (encodeFields fmt bo (BitVec.ofNat 8 r) (BitVec.ofNat 8 g) (BitVec.ofNat 8 b)) := by
  simp [assembleLine, asmWellFormed, hr, hg, hb]

/-- The word of a `QPIX` line in range: red is the literal's high byte (R69). -/
theorem assembleLine_qpix (fmt : OutputFormat) (bo : ByteOrder) {rgb : Nat} (h : rgb < 2 ^ 24) :
    assembleLine (.qpix fmt bo rgb) =
      some (encodeFields fmt bo (BitVec.ofNat 8 (rgb / 2 ^ 16)) (BitVec.ofNat 8 (rgb / 2 ^ 8))
        (BitVec.ofNat 8 rgb)) := by
  simp only [assembleLine, asmWellFormed, h, decide_true, if_true]

/-- The word of a `.word` line in range (R68). -/
theorem assembleLine_literal {n : Nat} (h : n < 2 ^ 32) : assembleLine (.literal n) = some (BitVec.ofNat 32 n) := by
  simp only [assembleLine, asmWellFormed, h, decide_true, if_true]

/-- A command line is out of range where one of its channels is (R68). -/
theorem asmWellFormed_op_eq_false_iff (fmt : OutputFormat) (bo : ByteOrder) (r g b : Nat) :
    asmWellFormed (.op fmt bo r g b) = false ↔ 255 < r ∨ 255 < g ∨ 255 < b := by
  rw [← Bool.not_eq_true]
  simp only [asmWellFormed, Bool.and_eq_true, decide_eq_true_eq]
  omega

/-- Settles O6: the word of a line in range by its fields, the refusal of a line out of range, and the mnemonics. -/
theorem assemblerNeverTruncates : Obligations.AssemblerNeverTruncates := by
  refine ⟨fun fmt bo r g b => ⟨fun hr hg hb => ?_, fun h => ?_⟩, fun fmt bo rgb => ⟨fun h => ?_, fun h => ?_⟩,
    fun n => ⟨fun h => ?_, fun h => ?_⟩, ?_⟩
  · refine ⟨_, assembleLine_op fmt bo hr hg hb, fieldFmt_encodeFields .., fieldBo_encodeFields ..,
      fieldRsv_encodeFields .., ?_, ?_, ?_⟩
    · rw [fieldR_encodeFields, BitVec.toNat_ofNat, Nat.mod_eq_of_lt (by omega)]
    · rw [fieldG_encodeFields, BitVec.toNat_ofNat, Nat.mod_eq_of_lt (by omega)]
    · rw [fieldB_encodeFields, BitVec.toNat_ofNat, Nat.mod_eq_of_lt (by omega)]
  · exact assembleLine_of_not_wellFormed ((asmWellFormed_op_eq_false_iff fmt bo r g b).2 h)
  · refine ⟨_, assembleLine_qpix fmt bo h, fieldFmt_encodeFields .., fieldBo_encodeFields ..,
      fieldRsv_encodeFields .., ?_⟩
    rw [fieldR_encodeFields, fieldG_encodeFields, fieldB_encodeFields]
    simp only [BitVec.toNat_ofNat]
    omega
  · exact assembleLine_of_not_wellFormed (decide_eq_false (Nat.not_lt.2 h))
  · exact ⟨_, assembleLine_literal h, by rw [BitVec.toNat_ofNat, Nat.mod_eq_of_lt h]⟩
  · exact assembleLine_of_not_wellFormed (decide_eq_false (Nat.not_lt.2 h))
  · decide

/-! ### The byte order of the one-byte formats -/

/-- Two commands with the same elements have one meaning (R88, R90). -/
theorem exec_eq_of_elems_eq {i j : Instr} (h : ∀ p, elems p i = elems p j) (s : State) : exec i s = exec j s := by
  simp only [exec_eq, h]

/-- Settles O26: the elements of Q332 and QGRAY do not see BO. -/
theorem byteOrderIgnoredByOneByteFormats : Obligations.ByteOrderIgnoredByOneByteFormats := by
  intro r g b s
  exact ⟨exec_eq_of_elems_eq (fun _ => rfl) s, exec_eq_of_elems_eq (fun _ => rfl) s⟩

end Sys2Proof.Machine

/-! PROOFS of the datapath family: the channel quantizer by its thresholds, the packer and the byte swap, and what the
command step answers where a word completes and where it does not (R80 to R91). -/

namespace Sys2Proof.Machine

/-! ### The channel quantizer

Its one law is a Galois connection: v reaches level k exactly from the threshold of k on. -/

/-- The smallest input of level k (R85): `v*m + 127` reaches `255*k` there. -/
def levelThreshold (m k : Nat) : Nat := (255 * k - 127) ⌈/⌉ m

/-- The bounds of R80's four values that the laws need. -/
theorem bounds_of_mem_levelMaxima : ∀ m ∈ [31, 63, 7, 3], 0 < m ∧ m ≤ 255 := by decide

/-- A level's rounding error: at most 127 of 255 to either side (R80). -/
theorem chanLevel_bounds (v m : Nat) : 255 * chanLevel v m ≤ v * m + 127 ∧ v * m ≤ 255 * chanLevel v m + 127 := by
  unfold chanLevel
  omega

/-- An input reaches a level exactly from the level's threshold on (R85). -/
theorem levelThreshold_le_iff {m : Nat} (hm : 0 < m) (k v : Nat) : levelThreshold m k ≤ v ↔ k ≤ chanLevel v m := by
  rw [levelThreshold, ceilDiv_le_iff_le_mul hm, chanLevel, Nat.le_div_iff_mul_le (by decide), Nat.mul_comm m v]
  omega

/-- A level's inputs are those from its threshold up to one below the next (R85). -/
theorem chanLevel_eq_iff {m : Nat} (hm : 0 < m) (v k : Nat) :
    chanLevel v m = k ↔ levelThreshold m k ≤ v ∧ v < levelThreshold m (k + 1) := by
  rw [← Nat.not_le, levelThreshold_le_iff hm, levelThreshold_le_iff hm]
  omega

/-- Q is non-decreasing (R81 (d)). -/
theorem chanLevel_mono (m : Nat) {v v' : Nat} (h : v ≤ v') : chanLevel v m ≤ chanLevel v' m :=
  Nat.div_le_div_right (Nat.add_le_add_right (Nat.mul_le_mul_right m h) 127)

/-- Q(0) = 0 (R81 (b)). -/
theorem chanLevel_zero (m : Nat) : chanLevel 0 m = 0 := by simp [chanLevel]

/-- Q(255) = m (R81 (c)). -/
theorem chanLevel_255 (m : Nat) : chanLevel 255 m = m := by
  unfold chanLevel
  omega

/-- One step of the input raises the level by at most one. -/
theorem chanLevel_succ_le {m : Nat} (hmax : m ≤ 255) (v : Nat) : chanLevel (v + 1) m ≤ chanLevel v m + 1 := by
  unfold chanLevel
  rw [Nat.succ_mul]
  omega

/-- No level is skipped: the input before a level's threshold is below the level, so the threshold is not above it. -/
theorem levelThreshold_lt_succ {m : Nat} (hm : 0 < m) (hmax : m ≤ 255) (k : Nat) :
    levelThreshold m k < levelThreshold m (k + 1) := by
  rw [← Nat.not_le, levelThreshold_le_iff hm]
  cases hv : levelThreshold m k with
  | zero => simp [chanLevel_zero]
  | succ v =>
    have hbelow : ¬ k ≤ chanLevel v m := by
      rw [← levelThreshold_le_iff hm, hv]
      exact Nat.not_succ_le_self v
    have hstep := chanLevel_succ_le hmax v
    omega

/-- A level's threshold gives the level (R81 (e)). -/
theorem chanLevel_levelThreshold {m : Nat} (hm : 0 < m) (hmax : m ≤ 255) (k : Nat) :
    chanLevel (levelThreshold m k) m = k :=
  (chanLevel_eq_iff hm _ k).2 ⟨le_rfl, levelThreshold_lt_succ hm hmax k⟩

/-- The threshold of a level is a channel value. -/
theorem levelThreshold_le_255 {m k : Nat} (hm : 0 < m) (hk : k ≤ m) : levelThreshold m k ≤ 255 := by
  rwa [levelThreshold_le_iff hm, chanLevel_255]

/-- Settles O7: each level is reached at its threshold. -/
theorem levelLaws : Obligations.LevelLaws := by
  intro m hmem
  obtain ⟨hm, hmax⟩ := bounds_of_mem_levelMaxima m hmem
  refine ⟨fun v => chanLevel_le, chanLevel_zero m, chanLevel_255 m, fun v v' => chanLevel_mono m, fun k hk => ?_⟩
  exact ⟨levelThreshold m k, levelThreshold_le_255 hm hk, chanLevel_levelThreshold hm hmax k⟩

/-- R82's floor form. -/
theorem chanLevel_eq_floor (v m : Nat) : (chanLevel v m : ℤ) = ⌊((v * m : ℕ) : ℚ) / 255 + 1 / 2⌋ := by
  obtain ⟨hlow, hhigh⟩ := chanLevel_bounds v m
  have hlow : (255 * chanLevel v m : ℚ) ≤ (v * m : ℕ) + 127 := by exact_mod_cast hlow
  have hhigh : ((v * m : ℕ) : ℚ) ≤ 255 * chanLevel v m + 127 := by exact_mod_cast hhigh
  rw [eq_comm, Int.floor_eq_iff, Int.cast_natCast]
  constructor
  · linarith
  · linarith

/-- No quotient by 255 is halfway between two integers: 255 is odd. -/
theorem div_255_ne_half (n : Nat) (k : ℤ) : (n : ℚ) / 255 ≠ (k : ℚ) + 1 / 2 := by
  intro h
  have hodd : (2 * n : ℚ) = 255 * (2 * k + 1) := by linarith
  have hodd : (2 * n : ℤ) = 255 * (2 * k + 1) := by exact_mod_cast hodd
  omega

/-- Settles O8: rounding to nearest is the floor of the quotient plus one half. -/
theorem levelIsTheNearestInteger : Obligations.LevelIsTheNearestInteger := by
  intro m _ v _
  refine ⟨chanLevel_eq_floor v m, ?_, div_255_ne_half (v * m)⟩
  rw [round_eq]
  exact chanLevel_eq_floor v m

/-- Settles O9: R85's lists are the thresholds, the last one, of no level, cut to 256. -/
theorem levelThresholds : Obligations.LevelThresholds := by
  intro mt hmem
  have hm : 0 < mt.1 := by revert mt; decide
  have hlist : mt.2 ++ [256] = (List.range (mt.1 + 2)).map fun k => min (levelThreshold mt.1 k) 256 := by
    revert mt; decide
  have hentry : ∀ k < mt.1 + 2, (mt.2 ++ [256]).getD k 0 = min (levelThreshold mt.1 k) 256 := by
    intro k hk
    simp [hlist, hk]
  refine ⟨?_, fun v hv k hk => ?_⟩
  · simpa using congrArg List.length hlist
  · rw [hentry k (by omega), hentry (k + 1) (by omega), chanLevel_eq_iff hm]
    omega

/-- Settles O12: over the denominator m the error is that of the rounding, at most 127 of 255 to either side. -/
theorem levelRoundTripBound : Obligations.LevelRoundTripBound := by
  intro m hmem v _
  have hm : (0 : ℚ) < m := by exact_mod_cast (bounds_of_mem_levelMaxima m hmem).1
  obtain ⟨hlow, hhigh⟩ := chanLevel_bounds v m
  have hlow : (255 * chanLevel v m : ℚ) ≤ v * m + 127 := by exact_mod_cast hlow
  have hhigh : (v * m : ℚ) ≤ 255 * chanLevel v m + 127 := by exact_mod_cast hhigh
  calc |(v : ℚ) - chanLevel v m * 255 / m|
      = |((v : ℚ) * m - chanLevel v m * 255) / m| := by rw [sub_div, mul_div_cancel_right₀ _ hm.ne']
    _ = |(v : ℚ) * m - chanLevel v m * 255| / m := by rw [abs_div, abs_of_pos hm]
    _ ≤ (255 / 2) / m := by
        refine div_le_div_of_nonneg_right (abs_le.2 ⟨?_, ?_⟩) hm.le
        · linarith
        · linarith
    _ = 255 / (2 * m) := div_div _ _ _

/-! ### The byte swap and the packer -/

/-- swap16 fits 16 bits (R83). -/
theorem swap16_le {v : Nat} (h : v ≤ 0xFFFF) : swap16 v ≤ 0xFFFF := by
  rw [swap16_eq h]
  omega

/-- The high byte of the swapped value (R83). -/
theorem swap16_div {v : Nat} (h : v ≤ 0xFFFF) : swap16 v / 256 = v % 256 := by
  rw [swap16_eq h]
  omega

/-- The low byte of the swapped value (R83). -/
theorem swap16_mod {v : Nat} (h : v ≤ 0xFFFF) : swap16 v % 256 = v / 256 := by
  rw [swap16_eq h]
  omega

/-- Exchanging the bytes twice puts them back (R83). -/
theorem swap16_swap16 {v : Nat} (h : v ≤ 0xFFFF) : swap16 (swap16 v) = v := by
  rw [swap16_eq (swap16_le h), swap16_div h, swap16_mod h]
  omega

/-- Settles O10: the swap by its two bytes. -/
theorem swapExchangesTheBytes : Obligations.SwapExchangesTheBytes := by
  intro v h
  exact ⟨rfl, swap16_le h, swap16_swap16 h, swap16_div h, swap16_mod h⟩

/-- The three fields of the packed value are the levels (R84). -/
theorem pack565_fields {g b : Nat} (r : Nat) (hg : g ≤ 255) (hb : b ≤ 255) :
    pack565 r g b / 2 ^ 11 = chanLevel r 31 ∧ pack565 r g b / 2 ^ 5 % 2 ^ 6 = chanLevel g 63 ∧
      pack565 r g b % 2 ^ 5 = chanLevel b 31 := by
  have hg6 := chanLevel_le (m := 63) hg
  have hb5 := chanLevel_le (m := 31) hb
  rw [pack565_eq hg hb]
  omega

/-- Settles O11: the levels below their fields' widths, joined by addition. -/
theorem pack565FieldLayout : Obligations.Pack565FieldLayout := by
  intro r g b hr hg hb
  exact ⟨rfl, pack565_eq hg hb, pack565_le hr hg hb, pack565_fields r hg hb⟩

/-! ### A word that completes -/

@[simp] theorem format_instrOf (fmt : OutputFormat) (bo : ByteOrder) (r g b : Byte) :
    (instrOf fmt bo r g b).format = fmt := by
  cases fmt <;> rfl

/-- The number of elements of a command (R88). -/
theorem elems_length (p : Params) (i : Instr) :
    (elems p i).length = if i.format = .rgb565Bytes then 2 else 1 := by
  obtain ⟨fmt, bo, r, g, b, rfl⟩ := exists_eq_instrOf i
  rw [elems_instrOf_length, format_instrOf]

/-- Settles O27: the next state of a completing command holds the elements appended. -/
theorem completedCommandAppendsItsElements : Obligations.CompletedCommandAppendsItsElements := by
  intro i s hc
  exact ⟨_, exec_of_completing hc i, rfl, elems_length s.params i⟩

/-- Settles O29: the list is that of the command and the parameters. -/
theorem elementsDependOnTheFieldsAlone : Obligations.ElementsDependOnTheFieldsAlone := by
  intro i s s' t t' hparams hc hc' h h'
  rw [exec_of_completing hc] at h
  rw [exec_of_completing hc'] at h'
  cases h
  cases h'
  exact ⟨elems s.params i, rfl, by rw [hparams]⟩

/-! ### A word that does not complete -/

/-- Before the first reset a command step has no meaning (R202). -/
theorem commandStep_of_unseen {s : State} (hseen : s.resetSeen = false) (act : State → State) :
    commandStep act s = .refused .beforeFirstReset :=
  if_pos hseen

/-- While the block is not ready a command step is a hold, in which nothing changes (R89). -/
theorem commandStep_of_not_ready {s : State} (hseen : s.resetSeen = true) (hready : s.cmdReady = false)
    (act : State → State) : commandStep act s = .next s := by
  simp [commandStep, hseen, hready]

/-- The block is not ready while `rst` is asserted (R201). -/
theorem State.cmdReady_of_rst {s : State} (h : s.env.rst = true) : s.cmdReady = false := by
  simp [State.cmdReady, h]

/-- The block is not ready while ERR = 0 and OBUF has fewer than two free slots (R89). -/
theorem State.cmdReady_of_no_room {s : State} (herr : s.block.err = false)
    (hroom : s.params.outDepth - s.block.obuf.length < 2) : s.cmdReady = false := by
  rw [← Bool.not_eq_true, State.cmdReady_iff, herr]
  rintro ⟨-, hset | hfree⟩
  · exact Bool.false_ne_true hset
  · omega

/-- Settles O28: refused, held in reset, discarded, or held for want of room, in that order. -/
theorem commandThatDoesNotComplete : Obligations.CommandThatDoesNotComplete := by
  intro i s hnot
  rw [exec_eq]
  split
  next hseen => exact commandStep_of_unseen hseen _
  next hseen =>
    have hseen : s.resetSeen = true := by simpa using hseen
    split
    next hrst => exact commandStep_of_not_ready hseen (State.cmdReady_of_rst hrst) _
    next hrst =>
      have hrst : s.env.rst = false := by simpa using hrst
      split
      next herr => exact commandStep_of_terminal hseen hrst herr _
      next herr =>
        have herr : s.block.err = false := by simpa using herr
        have hroom : s.params.outDepth - s.block.obuf.length < 2 :=
          Nat.not_le.1 fun hfree => hnot ⟨hseen, hrst, herr, hfree⟩
        exact commandStep_of_not_ready hseen (State.cmdReady_of_no_room herr hroom) _

/-- While the block is not ready a command move changes nothing, whatever is on offer (R64, R89). -/
theorem commandMove_of_not_ready {s : State} (hseen : s.resetSeen = true) (hready : s.cmdReady = false) :
    commandMove s = .next s := by
  cases hoffer : s.env.cmds with
  | nil => simp [commandMove, hoffer]
  | cons w ws =>
    cases hd : decode w with
    | ok i => rw [commandMove_ok hoffer hd, exec_eq, commandStep_of_not_ready hseen hready]
    | error x => rw [commandMove_error hoffer hd, execIllegal, commandStep_of_not_ready hseen hready]

/-- Settles O34: the command move leaves the schedule, and the block is not ready. -/
theorem offerIsHeldWithoutRoom : Obligations.OfferIsHeldWithoutRoom := by
  intro s ms w ws hmoves _ hseen herr hroom
  have hready := State.cmdReady_of_no_room herr hroom
  refine ⟨hready, ?_⟩
  rw [step_cons hmoves]
  exact commandMove_of_not_ready (s := s.withMoves ms) hseen hready

/-! ### The step and readiness -/

/-- Settles O30: the step is the command move, and that is the command's meaning. -/
theorem stepRunsTheDecodedCommand : Obligations.StepRunsTheDecodedCommand := by
  intro s ms w ws i hmoves hoffer hd
  rw [step_cons hmoves]
  exact commandMove_ok (s := s.withMoves ms) hoffer hd

/-- Settles O33: readiness does not read the offer, and at least two slots of an empty buffer are free. -/
theorem readyExactlyWhenTwoSlotsOrError : Obligations.ReadyExactlyWhenTwoSlotsOrError := by
  intro s
  refine ⟨s.cmdReady_iff, fun _ => rfl, fun hwf hrst hempty => s.cmdReady_iff.2 ⟨hrst, .inr ?_⟩⟩
  have hdepth : 2 ≤ s.params.outDepth ∧ s.params.outDepth ≤ 255 := by simpa [Params.wf] using hwf
  rw [hempty]
  exact hdepth.1

end Sys2Proof.Machine

/-! PROOFS of the RGB565 family: the value in both byte orders, where its levels stand, the words of the encodings as
numbers, and what Q565 answers where it completes (R100 to R103). -/

namespace Sys2Proof.Machine

/-! ### The value in both byte orders -/

/-- The Big value is the Little value with its bytes exchanged (R101). -/
theorem rgb565_big (r g b : Byte) : rgb565 .big r g b = swap16 (rgb565 .little r g b) := rfl

/-- The RGB565 value is below 2^16 in both orders, as an H16 element needs (R12, R100). -/
theorem rgb565_lt (bo : ByteOrder) (r g b : Byte) : rgb565 bo r g b < 2 ^ 16 :=
  Nat.lt_succ_of_le (rgb565_le bo r g b)

/-- A packed value whose two bytes are equal is the RGB565 value in both orders (R100, corner cases). -/
theorem rgb565_of_swap16_eq_self {r g b : Byte} (bo : ByteOrder)
    (h : swap16 (pack565 r.toNat g.toNat b.toNat) = pack565 r.toNat g.toNat b.toNat) :
    rgb565 bo r g b = pack565 r.toNat g.toNat b.toNat := by
  cases bo with
  | little => rfl
  | big => exact h

/-- Settles O13: the second law is the first with the bytes exchanged twice. -/
theorem byteOrderLawOfRgb565 : Obligations.ByteOrderLawOfRgb565 := by
  intro r g b
  refine ⟨rgb565_big r g b, ?_⟩
  rw [rgb565_big, swap16_swap16 (rgb565_le .little r g b)]

/-- The Big value in arithmetic: the boundary of the bytes cuts green's level below its bit 3 (R103). -/
theorem rgb565_big_eq (r g b : Byte) :
    rgb565 .big r g b =
      chanLevel g.toNat 63 % 2 ^ 3 * 2 ^ 13 + chanLevel b.toNat 31 * 2 ^ 8 + chanLevel r.toNat 31 * 2 ^ 3 +
        chanLevel g.toNat 63 / 2 ^ 3 := by
  have hb5 := chanLevel_le (m := 31) (byte_le b)
  rw [rgb565_big, swap16_eq (rgb565_le .little r g b), rgb565, pack565_eq (byte_le g) (byte_le b)]
  omega

/-- The four pieces of the Big value (R103). -/
theorem rgb565_big_fields (r g b : Byte) :
    rgb565 .big r g b / 2 ^ 13 = chanLevel g.toNat 63 % 2 ^ 3 ∧
      rgb565 .big r g b % 2 ^ 3 = chanLevel g.toNat 63 / 2 ^ 3 ∧
      rgb565 .big r g b / 2 ^ 8 % 2 ^ 5 = chanLevel b.toNat 31 ∧
      rgb565 .big r g b / 2 ^ 3 % 2 ^ 5 = chanLevel r.toNat 31 := by
  have hr5 := chanLevel_le (m := 31) (byte_le r)
  have hg6 := chanLevel_le (m := 63) (byte_le g)
  have hb5 := chanLevel_le (m := 31) (byte_le b)
  have hbig := rgb565_big_eq r g b
  have hhigh : rgb565 .big r g b / 2 ^ 8 = chanLevel g.toNat 63 % 2 ^ 3 * 2 ^ 5 + chanLevel b.toNat 31 := by omega
  have hmiddle : rgb565 .big r g b / 2 ^ 3 =
      (chanLevel g.toNat 63 % 2 ^ 3 * 2 ^ 5 + chanLevel b.toNat 31) * 2 ^ 5 + chanLevel r.toNat 31 := by omega
  refine ⟨?_, ?_, ?_, ?_⟩
  · omega
  · omega
  · rw [hhigh]
    omega
  · rw [hmiddle]
    omega

/-- Settles O14: the fields of the Little value, its two bytes exchanged, and the pieces of the Big value. -/
theorem rgb565FieldPositions : Obligations.Rgb565FieldPositions := by
  intro r g b lit big r5 g6 b5
  have hlit : lit ≤ 0xFFFF := rgb565_le .little r g b
  obtain ⟨hred, hgreen, hblue⟩ := pack565_fields r.toNat (byte_le g) (byte_le b)
  exact ⟨rgb565_lt .little r g b, hred, hgreen, hblue, rgb565_lt .big r g b, swap16_div hlit, swap16_mod hlit,
    rgb565_big_fields r g b⟩

/-! ### The words of the encodings -/

/-- Bit vectors side by side, as a number. -/
theorem toNat_append_eq_add {m n : Nat} (x : BitVec m) (y : BitVec n) :
    (x ++ y).toNat = x.toNat * 2 ^ n + y.toNat := by
  rw [BitVec.toNat_append, shiftLeft_or_eq_add y.isLt]

/-- The word of a command as a number: its fields at their positions (R60). -/
theorem encodeFields_toNat (fmt : OutputFormat) (bo : ByteOrder) (r g b : Byte) :
    (encodeFields fmt bo r g b).toNat =
      (codeOfFormat fmt).toNat * 2 ^ 30 + (bitOfByteOrder bo).toNat * 2 ^ 29 + r.toNat * 2 ^ 16 + g.toNat * 2 ^ 8 +
        b.toNat := by
  rw [encodeFields_eq_wordOfFields, wordOfFields]
  simp only [toNat_append_eq_add, BitVec.toNat_zero]
  omega

/-- A word that a command encodes to decodes to that command (R66). -/
theorem decode_of_encode_eq {w : Word} {i : Instr} (h : encode i = w) : decode w = .ok i :=
  h ▸ decodeAfterEncode i

/-- Settles O1: each legal word is the word of its command, and the last word's reserved field is 1. -/
theorem decodeReadsWrittenOutWords : Obligations.DecodeReadsWrittenOutWords := by
  have hrsv : fieldRsv 0x21FFFFFF#32 = 1 := by decide
  refine ⟨decode_of_encode_eq (by decide), decode_of_encode_eq (by decide), decode_of_encode_eq (by decide),
    decode_of_encode_eq (by decide), decode_of_encode_eq (by decide), decode_of_encode_eq (by decide), ?_⟩
  rw [decode_of_fieldRsv_ne_zero (by rw [hrsv]; decide), hrsv]

/-! ### What Q565 answers, and the source's vectors -/

/-- The whole next state of a Q565 that completes (R88, R90, R100). -/
theorem exec_q565_of_completing {s : State} (hc : s.Completing) (bo : ByteOrder) (r g b : Byte) :
    exec (.q565 bo r g b) s =
      .next { s with
        block := { s.block with
          obuf := s.block.obuf ++ [elemH16 (rgb565 bo r g b)]
          pixcnt := s.block.pixcnt + 1 }
        env := { s.env with cmds := s.env.cmds.tail } } :=
  exec_of_completing hc (.q565 bo r g b)

/-- The value of the worked example, pure red (R100). -/
theorem rgb565_red : rgb565 .little 255 0 0 = 0xF800 ∧ rgb565 .big 255 0 0 = 0x00F8 := by decide

/-- Settles O20: the appended element is the RGB565 value, whose formula in each byte order is R100's. -/
theorem q565Completes : Obligations.Q565Completes := by
  obtain ⟨hlittle, hbig⟩ := rgb565_red
  refine ⟨fun bo r g b s hc => ?_, fun bo r g b => ?_, by decide, by decide, fun s hc => ⟨?_, ?_⟩⟩
  · cases bo with
    | little => exact ⟨rgb565_lt .little r g b, exec_q565_of_completing hc .little r g b⟩
    | big => exact ⟨rgb565_lt .big r g b, exec_q565_of_completing hc .big r g b⟩
  · simpa [encode, codeOfFormat] using encodeFields_toNat .rgb565 bo r g b
  · exact ⟨_, exec_q565_of_completing hc .little 255 0 0, by rw [hlittle]; rfl⟩
  · exact ⟨_, exec_q565_of_completing hc .big 255 0 0, by rw [hbig]; rfl⟩

/-- Settles O19: black and white are the same in both byte orders, the other vectors are evaluated. -/
theorem sourceVectors : Obligations.SourceVectors := by
  refine ⟨fun bo => ⟨?_, ?_⟩, by decide, by decide, by decide, by decide, by decide, by decide, by decide⟩
  · rw [elemsQ565, rgb565_of_swap16_eq_self bo (by decide)]
    decide
  · rw [elemsQ565, rgb565_of_swap16_eq_self bo (by decide)]
    decide

end Sys2Proof.Machine

/-! PROOFS of the RGB332 family: the value fits a byte, where its levels stand, and what Q332 answers where it
completes (R120, R121). -/

namespace Sys2Proof.Machine

/-- The RGB332 value fits a byte, as a B8 element needs (R12, R120). -/
theorem rgb332_le (r g b : Byte) : rgb332 r g b ≤ 0xFF := by
  have hr3 := chanLevel_le (m := 7) (byte_le r)
  have hg3 := chanLevel_le (m := 7) (byte_le g)
  have hb2 := chanLevel_le (m := 3) (byte_le b)
  rw [rgb332_eq]
  omega

/-- The three fields of the RGB332 value are the levels: green and blue stay below their fields' widths (R120). -/
theorem rgb332_fields (r g b : Byte) :
    rgb332 r g b / 2 ^ 5 = chanLevel r.toNat 7 ∧ rgb332 r g b / 2 ^ 2 % 2 ^ 3 = chanLevel g.toNat 7 ∧
      rgb332 r g b % 2 ^ 2 = chanLevel b.toNat 3 := by
  have hg3 := chanLevel_le (m := 7) (byte_le g)
  have hb2 := chanLevel_le (m := 3) (byte_le b)
  rw [rgb332_eq]
  omega

/-- Settles O15: the bound and the fields, each level by its formula (R80). -/
theorem rgb332FieldLayout : Obligations.Rgb332FieldLayout := by
  intro r g b
  exact ⟨rgb332_le r g b, rgb332_fields r g b⟩

/-- The whole next state of a Q332 that completes (R88, R90, R120). -/
theorem exec_q332_of_completing {s : State} (hc : s.Completing) (bo : ByteOrder) (r g b : Byte) :
    exec (.q332 bo r g b) s =
      .next { s with
        block := { s.block with
          obuf := s.block.obuf ++ [elemB8 (rgb332 r g b)]
          pixcnt := s.block.pixcnt + 1 }
        env := { s.env with cmds := s.env.cmds.tail } } :=
  exec_of_completing hc (.q332 bo r g b)

/-- Settles O21: the appended element is the RGB332 value, whose formula is R120's with R121's green, and the word has
format code 1. -/
theorem q332Completes : Obligations.Q332Completes := by
  refine ⟨fun bo r g b s hc => ?_, fun bo r g b => ?_⟩
  · exact ⟨Nat.lt_succ_of_le (rgb332_le r g b), exec_q332_of_completing hc bo r g b⟩
  · simpa [encode, codeOfFormat] using encodeFields_toNat .rgb332 bo r g b

end Sys2Proof.Machine

/-! PROOFS of the GRAY8 family: the EXACT luma, how far binary64 rounding can move the sum, and what QGRAY answers where
it completes (R140 to R143). -/

namespace Sys2Proof.Machine

/-! ### The block's EXACT arithmetic -/

@[simp] theorem grayLuma_exact (r g b : Byte) : grayLuma .exact r g b = graySum r g b / 1000 := rfl

@[simp] theorem grayLuma_binary64 (r g b : Byte) : grayLuma .binary64 r g b = graySumBinary64 r g b / 2 ^ 56 := rfl

/-- The EXACT luma fits a byte before the clamp (R142). -/
theorem grayLuma_exact_le (r g b : Byte) : grayLuma .exact r g b ≤ 255 := by
  have hsum := graySum_le r g b
  rw [grayLuma_exact]
  omega

/-- Where the luma fits a byte, the clamp does not change it. -/
theorem gray8_of_grayLuma_le {a : GrayArith} {r g b : Byte} (h : grayLuma a r g b ≤ 255) :
    gray8 a r g b = grayLuma a r g b :=
  Nat.min_eq_left h

/-- The weights add up to 1000 (R140). -/
theorem graySum_self (k : Byte) : graySum k k k = 1000 * k.toNat := by
  unfold graySum
  omega

/-- Settles O16: the sum's bound bounds the luma, so the clamp is the identity. -/
theorem grayClampIsNeverActive : Obligations.GrayClampIsNeverActive := by
  intro r g b
  refine ⟨graySum_le r g b, by decide, grayLuma_exact_le r g b, gray8_of_grayLuma_le (grayLuma_exact_le r g b), ?_⟩
  rw [gray8_of_grayLuma_le (grayLuma_exact_le r r r), grayLuma_exact, graySum_self,
    Nat.mul_div_cancel_left _ (by decide)]

/-! ### The named alternative BINARY64 -/

/-- Rounding moves a number by at most half a unit of its last kept bit, whichever way a tie goes (R143). -/
theorem roundBinary64_near (x : Nat) :
    2 * roundBinary64 x ≤ 2 * x + 2 ^ (x.log2 - 52) ∧ 2 * x ≤ 2 * roundBinary64 x + 2 ^ (x.log2 - 52) := by
  unfold roundBinary64
  generalize x.log2 - 52 = k
  have hsplit : 2 ^ k * (x / 2 ^ k) + x % 2 ^ k = x := Nat.div_add_mod x (2 ^ k)
  have hlow : x % 2 ^ k < 2 ^ k := Nat.mod_lt x (Nat.two_pow_pos k)
  simp only [Nat.shiftRight_eq_div_pow, Nat.shiftLeft_eq, Nat.mul_comm _ (2 ^ k)]
  split
  next hup => rw [Nat.mul_add]; omega
  next hdown => omega

/-- Below 256 in units of 2^-56, one rounding moves a number by at most 2^10 units. -/
theorem roundBinary64_near_of_lt {x : Nat} (h : x < 2 ^ 64) :
    roundBinary64 x ≤ x + 2 ^ 10 ∧ x ≤ roundBinary64 x + 2 ^ 10 := by
  have hlog : x.log2 - 52 ≤ 11 := by
    have hlt : x.log2 < 64 := Nat.log2_eq_log_two ▸ Nat.log_lt_of_lt_pow' (by decide) h
    omega
  have hunit : 2 ^ (x.log2 - 52) ≤ 2 ^ 11 := Nat.pow_le_pow_right (by decide) hlog
  obtain ⟨hupper, hlower⟩ := roundBinary64_near x
  omega

/-- The rounded weights and the five roundings together move the sum by less than a thousandth (R143). -/
theorem graySumBinary64_near (r g b : Byte) :
    1000 * graySumBinary64 r g b < 2 ^ 56 * (graySum r g b + 1) ∧
      2 ^ 56 * graySum r g b < 1000 * graySumBinary64 r g b + 2 ^ 56 := by
  have hr := byte_le r
  have hg := byte_le g
  have hb := byte_le b
  have hred := roundBinary64_near_of_lt (x := weightR * r.toNat) (by unfold weightR; omega)
  have hgreen := roundBinary64_near_of_lt (x := weightG * g.toNat) (by unfold weightG; omega)
  have hblue := roundBinary64_near_of_lt (x := weightB * b.toNat) (by unfold weightB; omega)
  unfold graySumBinary64 graySum
  generalize roundBinary64 (weightR * r.toNat) = pr at *
  generalize roundBinary64 (weightG * g.toNat) = pg at *
  generalize roundBinary64 (weightB * b.toNat) = pb at *
  unfold weightR at hred
  unfold weightG at hgreen
  unfold weightB at hblue
  have hpair := roundBinary64_near_of_lt (x := pr + pg) (by omega)
  generalize roundBinary64 (pr + pg) = prg at *
  have hsum := roundBinary64_near_of_lt (x := prg + pb) (by omega)
  omega

/-- The truncated BINARY64 sum is the EXACT luma, or 1 less where the exact sum is a multiple of 1000: elsewhere the
sum is at least a thousandth away from the next luma below and above (R143). -/
theorem grayLuma_binary64_cases (r g b : Byte) :
    grayLuma .binary64 r g b = grayLuma .exact r g b ∨
      (graySum r g b % 1000 = 0 ∧ grayLuma .binary64 r g b + 1 = grayLuma .exact r g b) := by
  obtain ⟨hupper, hlower⟩ := graySumBinary64_near r g b
  rw [grayLuma_binary64, grayLuma_exact]
  omega

/-- The BINARY64 luma is at most the EXACT one, so it fits a byte before the clamp too. -/
theorem grayLuma_le (a : GrayArith) (r g b : Byte) : grayLuma a r g b ≤ 255 := by
  have hexact := grayLuma_exact_le r g b
  cases a with
  | exact => exact hexact
  | binary64 =>
    obtain hsame | ⟨-, hless⟩ := grayLuma_binary64_cases r g b
    · omega
    · omega

/-- Settles O17: neither arithmetic's clamp is active, so the lumas' relation is the results'; the examples are
evaluated. -/
theorem binary64DiffersOnlyAtMultiples : Obligations.Binary64DiffersOnlyAtMultiples := by
  refine ⟨fun r g b => ?_, by decide, by decide, by decide, by decide, by decide, by decide, by decide, by decide⟩
  rw [gray8_of_grayLuma_le (grayLuma_le .binary64 r g b), gray8_of_grayLuma_le (grayLuma_le .exact r g b)]
  exact grayLuma_binary64_cases r g b

/-! ### What QGRAY answers -/

/-- The whole next state of a QGRAY that completes, in the state's own arithmetic (R88, R90, R140, R143). -/
theorem exec_qgray_of_completing {s : State} (hc : s.Completing) (bo : ByteOrder) (r g b : Byte) :
    exec (.qgray bo r g b) s =
      .next { s with
        block := { s.block with
          obuf := s.block.obuf ++ [elemB8 (gray8 s.params.grayArith r g b)]
          pixcnt := s.block.pixcnt + 1 }
        env := { s.env with cmds := s.env.cmds.tail } } :=
  exec_of_completing hc (.qgray bo r g b)

/-- Settles O22: the appended element is the EXACT luma, clamped, and the word has format code 2. -/
theorem qgrayCompletes : Obligations.QgrayCompletes := by
  refine ⟨fun bo r g b s hc harith => ?_, fun bo r g b => ?_⟩
  · rw [exec_qgray_of_completing hc, harith]
    rfl
  · simpa [encode, codeOfFormat] using encodeFields_toNat .gray8 bo r g b

/-- Settles O23: the appended element is the BINARY64 luma, clamped. -/
theorem qgrayBinary64Completes : Obligations.QgrayBinary64Completes := by
  intro bo r g b s hc harith fl sum
  rw [exec_qgray_of_completing hc, harith]
  rfl

end Sys2Proof.Machine

/-! PROOFS of the RGB565_8BIT family: the two bytes of the split joined and exchanged, and what Q565S answers where it
completes (R160, R162). -/

namespace Sys2Proof.Machine

/-! ### The pair -/

/-- With the swap Q565S splits the RGB565 value of its byte order into quotient and remainder by 256 (R88, R160). -/
theorem elemsQ565s_true (bo : ByteOrder) (r g b : Byte) :
    elemsQ565s true bo r g b = [elemB8 (rgb565 bo r g b / 256), elemB8 (rgb565 bo r g b % 256)] := by
  have hhigh : rgb565 bo r g b >>> 8 = rgb565 bo r g b / 256 := Nat.shiftRight_eq_div_pow _ 8
  have hlow : rgb565 bo r g b &&& 0xFF = rgb565 bo r g b % 256 := Nat.and_two_pow_sub_one_eq_mod _ 8
  rw [elemsQ565s, splitValue, if_pos rfl, hhigh, hlow]

/-- The high and the low byte of a 16-bit value, as a number (R162). -/
theorem highByte_mul_add_lowByte {v : Nat} (h : v < 2 ^ 16) :
    (BitVec.ofNat 8 (v / 256)).toNat * 256 + (BitVec.ofNat 8 (v % 256)).toNat = v := by
  rw [BitVec.toNat_ofNat, BitVec.toNat_ofNat]
  omega

/-- The high and the low byte of a 16-bit value, side by side (R162). -/
theorem highByte_append_lowByte {v : Nat} (h : v < 2 ^ 16) :
    BitVec.ofNat 8 (v / 256) ++ BitVec.ofNat 8 (v % 256) = BitVec.ofNat 16 v := by
  apply BitVec.eq_of_toNat_eq
  calc (BitVec.ofNat 8 (v / 256) ++ BitVec.ofNat 8 (v % 256)).toNat
      = (BitVec.ofNat 8 (v / 256)).toNat * 2 ^ 8 + (BitVec.ofNat 8 (v % 256)).toNat := toNat_append_eq_add _ _
    _ = v := highByte_mul_add_lowByte h
    _ = (BitVec.ofNat 16 v).toNat := by rw [BitVec.toNat_ofNat, Nat.mod_eq_of_lt h]

/-- The Big pair is the Little pair reversed, since the swap exchanges quotient and remainder (R162). -/
theorem elemsQ565s_big (r g b : Byte) :
    elemsQ565s true .big r g b = (elemsQ565s true .little r g b).reverse := by
  have hlittle := rgb565_le .little r g b
  rw [elemsQ565s_true, elemsQ565s_true, rgb565_big, swap16_div hlittle, swap16_mod hlittle]
  rfl

/-- Settles O18: the two bytes of the value joined, and exchanged by the swap. -/
theorem splitPairLaws : Obligations.SplitPairLaws := by
  refine fun r g b => ⟨fun bo => ?_, elemsQ565s_big r g b⟩
  have hlt := rgb565_lt bo r g b
  refine ⟨_, _, elemsQ565s_true bo r g b, ?_, highByte_mul_add_lowByte hlt⟩
  rw [highByte_append_lowByte hlt]
  rfl

/-! ### What Q565S answers -/

/-- The whole next state of a Q565S that completes, in the state's own reading of the swap (R88, R90, R160, R161). -/
theorem exec_q565s_of_completing {s : State} (hc : s.Completing) (bo : ByteOrder) (r g b : Byte) :
    exec (.q565s bo r g b) s =
      .next { s with
        block := { s.block with
          obuf := s.block.obuf ++ elemsQ565s s.params.splitSwaps bo r g b
          pixcnt := s.block.pixcnt + 1 }
        env := { s.env with cmds := s.env.cmds.tail } } :=
  exec_of_completing hc (.q565s bo r g b)

/-- Settles O24: the appended elements are the split of the swapped value, and the word has format code 3. -/
theorem q565sCompletes : Obligations.Q565sCompletes := by
  refine ⟨fun bo r g b s hc hswap => ⟨rgb565_lt bo r g b, ?_⟩, fun bo r g b => ?_⟩
  · rw [exec_q565s_of_completing hc, hswap]
    rfl
  · simpa [encode, codeOfFormat] using encodeFields_toNat .rgb565Bytes bo r g b

end Sys2Proof.Machine

/-! PROOFS of the exceptions family: the step without an offer, the error entry, and the terminal state in a step and
over a run (R182 to R188, R195). -/

namespace Sys2Proof.Machine

/-! ### A command move by the word on offer -/

/-- A command move without an offer changes nothing (R41, R195). -/
theorem commandMove_of_no_offer {s : State} (hoffer : s.env.cmds = []) : commandMove s = .next s := by
  simp [commandMove, hoffer]

/-- The state after the transfer, with the words that remain on offer (R90). -/
theorem State.accept_of_cons {s : State} {w : Word} {ws : List Word} (hoffer : s.env.cmds = w :: ws) :
    s.accept = { s with env := { s.env with cmds := ws } } := by
  rw [State.accept, hoffer, List.tail_cons]

/-- A command move with an illegal word on offer, where a word completes, takes the error (R64, R182). -/
theorem commandMove_of_illegal {s : State} {w : Word} {ws : List Word} (hc : s.Completing)
    (hoffer : s.env.cmds = w :: ws) (hillegal : w &&& 0x1F000000#32 ≠ 0#32) :
    commandMove s = .next { s with
      block := { s.block with err := true, ecode := codeInvalidCmd, errword := w }
      env := { s.env with cmds := ws } } := by
  have hrsv : fieldRsv w ≠ 0#5 := mt (and_reserved_eq_zero_iff w).2 hillegal
  rw [commandMove_error hoffer (decode_of_fieldRsv_ne_zero hrsv), execIllegal, commandStep_of_completing hc,
    State.accept_of_cons hoffer]
  rfl

/-- A command move in the terminal state consumes the word on offer, legal or illegal, and does no more (R184). -/
theorem commandMove_of_terminal {s : State} {w : Word} {ws : List Word} (hseen : s.resetSeen = true)
    (hrst : s.env.rst = false) (herr : s.block.err = true) (hoffer : s.env.cmds = w :: ws) :
    commandMove s = .next { s with env := { s.env with cmds := ws } } := by
  rw [← State.accept_of_cons hoffer]
  cases hd : decode w with
  | ok i => rw [commandMove_ok hoffer hd, exec_eq, commandStep_of_terminal hseen hrst herr]
  | error x => rw [commandMove_error hoffer hd, execIllegal, commandStep_of_terminal hseen hrst herr]

/-- Settles O32: a step without a move answers its state, and a command move without an offer the state without that
move. -/
theorem noOfferNoChange : Obligations.NoOfferNoChange := by
  refine fun s => ⟨step_nil, fun ms hmoves hoffer => ?_⟩
  rw [step_cons hmoves]
  exact commandMove_of_no_offer (s := s.withMoves ms) hoffer

/-- Settles O36: the step is the command move, whose next state has the error entry and the `err` output at 1. -/
theorem illegalWordTakesTheError : Obligations.IllegalWordTakesTheError := by
  intro s ms w ws hc hmoves hoffer hillegal
  have hmove := commandMove_of_illegal (s := s.withMoves ms) hc hoffer hillegal
  exact ⟨_, (step_cons hmoves).trans hmove, rfl, rfl⟩

/-! ### The terminal state -/

/-- A step from ERR = 1 that is no reset step writes no part of the block but OBUF: no word completes or raises the
error (R184). -/
theorem step_block_of_err {s t : State} (herr : s.block.err = true) (h : step s = .next t) :
    t.block = { s.block with obuf := t.block.obuf } ∨ ∃ ms, s.env.moves = .assertReset :: ms := by
  cases blockStep_of_step h with
  | kept hblock => exact .inl (by rw [hblock])
  | cleared hmove => exact .inr hmove
  | took _ _ _ hblock => exact .inl (by rw [hblock])
  | completed _ _ _ hready => exact absurd herr (Bool.eq_false_iff.1 hready.2.2.1)
  | failed _ _ _ hready => exact absurd herr (Bool.eq_false_iff.1 hready.2.2.1)

/-- Settles O37: ERR makes the block ready and its command move a discard, and a step without a reset keeps all but
OBUF. -/
theorem terminalStateDiscardsEveryWord : Obligations.TerminalStateDiscardsEveryWord := by
  refine ⟨fun s ms w ws hseen hrst herr hmoves hoffer => ⟨s.cmdReady_iff.2 ⟨hrst, .inl herr⟩, ?_⟩,
    fun s t herr h => (step_block_of_err herr h).imp_left fun hblock => ?_⟩
  · rw [step_cons hmoves]
    exact commandMove_of_terminal (s := s.withMoves ms) hseen hrst herr hoffer
  · rw [hblock]
    exact ⟨herr, rfl, rfl, rfl⟩

/-! ### A run in the terminal state

The ledger, OBUF behind what was taken, stays as it is; so what has left OBUF is what the consumer's record has grown
by. -/

/-- A move takes nothing back from the consumer: its record only grows at the end (R43). -/
theorem runMove_taken_prefix {m : Move} {s t : State} (h : runMove m s = .next t) :
    s.env.taken <+: t.env.taken := by
  cases m with
  | command =>
    obtain ⟨-, rfl⟩ | ⟨w, ws, -, -, ⟨-, rfl⟩ | ⟨-, -, rfl⟩ | ⟨-, i, -, rfl⟩ | ⟨-, -, rfl⟩⟩ := commandMove_cases h
    case inl => exact List.prefix_rfl
    case inr.inl => exact List.prefix_rfl
    case inr.inr.inl => exact List.prefix_rfl
    case inr.inr.inr.inl => rw [State.complete_env, State.accept_env]
    case inr.inr.inr.inr => exact List.prefix_rfl
  | take =>
    obtain ⟨-, ⟨-, rfl⟩ | ⟨e, rest, -, -, rfl⟩⟩ := takeMove_cases h
    · exact List.prefix_rfl
    · exact List.prefix_append _ _
  | read idx =>
    obtain ⟨-, rfl⟩ := readMove_cases h
    exact List.prefix_rfl
  | assertReset => cases h; exact List.prefix_rfl
  | releaseReset => cases h; exact List.prefix_rfl

/-- A step takes nothing back from the consumer. -/
theorem step_taken_prefix {s t : State} (h : step s = .next t) : s.env.taken <+: t.env.taken := by
  obtain ⟨-, rfl⟩ | ⟨m, ms, -, hm⟩ := step_cases h
  · exact List.prefix_rfl
  · exact runMove_taken_prefix (s := s.withMoves ms) hm

/-- A run takes nothing back from the consumer. -/
theorem run_taken_prefix {k : Nat} {s t : State} (h : Host.Core.run Sys2Proof.core k s = .next t) :
    s.env.taken <+: t.env.taken := by
  induction k generalizing s with
  | zero => cases h; exact List.prefix_rfl
  | succ k ih =>
    obtain ⟨u, hstep, hrun⟩ := run_succ_cases h
    exact (step_taken_prefix hstep).trans (ih hrun)

/-- A run from ERR = 1 without a reset keeps the ledger: the words it accepts change nothing (R184). -/
theorem run_ledger_of_err {k : Nat} {s t : State} (herr : s.block.err = true)
    (hreset : .assertReset ∉ s.env.moves.take k) (h : Host.Core.run Sys2Proof.core k s = .next t) :
    t.ledger = s.ledger := by
  obtain ⟨ws, -, hledger⟩ := run_accepts hreset h
  rw [hledger, Block.foldl_acceptWord_of_err (b := s.ledger) s.params herr]

/-- Settles O54: the ledger is kept, and its front that the consumer's record has grown by is what left OBUF. -/
theorem terminalStateOverARun : Obligations.TerminalStateOverARun := by
  intro k s t herr hreset hrun
  have hledger := run_ledger_of_err herr hreset hrun
  obtain ⟨out, htaken⟩ := run_taken_prefix hrun
  have hstream : t.env.taken ++ t.block.obuf = s.env.taken ++ s.block.obuf := congrArg Block.obuf hledger
  refine ⟨congrArg (fun b => { b with obuf := t.block.obuf }) hledger, out, ?_, htaken.symm⟩
  rw [← htaken, List.append_assoc] at hstream
  exact (List.append_cancel_left hstream).symm

end Sys2Proof.Machine

/-! PROOFS of the reset and hazards family: what runs before the first reset, the reset step, the block held in reset,
and the takes that lift a hold (R200 to R206). -/

namespace Sys2Proof.Machine

/-! ### Before the first reset -/

/-- An offer that meets the block before the first reset has no meaning, legal or illegal (R202). -/
theorem commandMove_of_unseen {s : State} (hseen : s.resetSeen = false) (hoffer : s.env.cmds ≠ []) :
    commandMove s = .refused .beforeFirstReset := by
  obtain ⟨w, ws, hcmds⟩ := List.exists_cons_of_ne_nil hoffer
  cases hd : decode w with
  | ok i => rw [commandMove_ok hcmds hd, exec_eq, commandStep_of_unseen hseen]
  | error x => rw [commandMove_error hcmds hd, execIllegal, commandStep_of_unseen hseen]

/-- A Take before the first reset has no meaning (R202). -/
theorem takeMove_of_unseen {s : State} (hseen : s.resetSeen = false) : takeMove s = .refused .beforeFirstReset :=
  if_pos hseen

/-- A status read before the first reset has no meaning (R202). -/
theorem readMove_of_unseen {s : State} (hseen : s.resetSeen = false) (idx : RegIndex) :
    readMove idx s = .refused .beforeFirstReset :=
  if_pos hseen

/-- Settles O48: each of the three moves is refused, on the state without that move. -/
theorem nothingRunsBeforeTheFirstReset : Obligations.NothingRunsBeforeTheFirstReset := by
  rintro s ms hseen (⟨hmoves, hoffer⟩ | hmoves | ⟨idx, hmoves⟩)
  · rw [step_cons hmoves]
    exact commandMove_of_unseen (s := s.withMoves ms) hseen hoffer
  · rw [step_cons hmoves]
    exact takeMove_of_unseen (s := s.withMoves ms) hseen
  · rw [step_cons hmoves]
    exact readMove_of_unseen (s := s.withMoves ms) hseen idx

/-! ### The reset step -/

/-- The reset step, whatever the state (R200). -/
theorem step_assertReset {s : State} {ms : List Move} (hmoves : s.env.moves = .assertReset :: ms) :
    step s = .next (s.withMoves ms).applyReset :=
  step_cons hmoves

/-- The release of `rst`, whatever the state (R201). -/
theorem step_releaseReset {s : State} {ms : List Move} (hmoves : s.env.moves = .releaseReset :: ms) :
    step s = .next (s.withMoves ms).releaseRst :=
  step_cons hmoves

/-- Settles O45: the reset step from any state, and a step from ERR = 1 that is no reset step keeps ERR. -/
theorem resetStepClearsTheBlock : Obligations.ResetStepClearsTheBlock := by
  refine ⟨fun s ms hmoves => step_assertReset hmoves, fun s t herr h hclear => ?_⟩
  refine (step_block_of_err herr h).resolve_left fun hkept => ?_
  have hset : t.block.err = true := by rw [hkept]; exact herr
  exact Bool.false_ne_true (hclear.symm.trans hset)

/-! ### Held in reset -/

/-- Nothing is presented to the consumer while `rst` is asserted (R201). -/
theorem State.outValid_of_rst {s : State} (h : s.env.rst = true) : s.outValid = false := by
  simp [State.outValid, h]

/-- With `rst` asserted a command move and a Take only leave the schedule (R201, log entry 8). -/
theorem step_of_rst {s : State} {ms : List Move} (hseen : s.resetSeen = true) (hrst : s.env.rst = true)
    (hmoves : s.env.moves = .command :: ms ∨ s.env.moves = .take :: ms) : step s = .next (s.withMoves ms) := by
  obtain hmoves | hmoves := hmoves
  · rw [step_cons hmoves]
    exact commandMove_of_not_ready (s := s.withMoves ms) hseen (State.cmdReady_of_rst hrst)
  · rw [step_cons hmoves]
    exact takeMove_of_not_valid (s := s.withMoves ms) hseen (State.outValid_of_rst hrst)

/-- With `rst` asserted a step from the reset state keeps the reset state: OBUF has no head to take, and no word is
accepted (R201). -/
theorem step_keeps_reset {s t : State} (hrst : s.env.rst = true) (hreset : s.block = Block.reset)
    (h : step s = .next t) : t.block = Block.reset := by
  cases blockStep_of_step h with
  | kept hblock => exact hblock.trans hreset
  | cleared _ hblock => exact hblock
  | took _ _ hobuf => rw [hreset] at hobuf; exact nomatch hobuf
  | completed _ _ _ hready => exact absurd hrst (Bool.eq_false_iff.1 hready.2.1)
  | failed _ _ _ hready => exact absurd hrst (Bool.eq_false_iff.1 hready.2.1)

/-- The reset state is ready once `rst` is deasserted (R89, R201). -/
theorem State.cmdReady_of_reset {s : State} (hwf : s.params.wf = true) (hreset : s.block = Block.reset)
    (hrst : s.env.rst = false) : s.cmdReady = true := by
  obtain ⟨-, -, hready⟩ := readyExactlyWhenTwoSlotsOrError s
  exact hready hwf hrst (congrArg Block.obuf hreset)

/-- STATUS reads 0 in the reset state (R28, R33). -/
theorem Block.reset_status : Block.reset.status = 0x00000000#32 := by decide

/-- Settles O46: a hold and a Take without an element, the reset state kept, and the two steps evaluated. -/
theorem heldInResetUntilReleased : Obligations.HeldInResetUntilReleased := by
  refine ⟨fun s hseen hrst => ?_, fun s t hwf hrst hreset h => ?_, fun s ms hwf hmoves => ?_⟩
  · exact ⟨State.cmdReady_of_rst hrst, State.outValid_of_rst hrst, fun ms hmoves => step_of_rst hseen hrst hmoves⟩
  · have hparams : t.params = s.params := noStepChangesTheParameters s t h
    have hkept := step_keeps_reset hrst hreset h
    exact ⟨hkept, State.cmdReady_of_reset (hparams ▸ hwf) hkept⟩
  · refine ⟨((s.withMoves (.releaseReset :: ms)).applyReset.withMoves ms).releaseRst, ?_, rfl, rfl, rfl, rfl, ?_,
      Block.reset_status⟩
    · rw [run_of_step (step_assertReset hmoves), run_of_step (step_releaseReset rfl)]
      rfl
    · exact State.cmdReady_of_reset hwf rfl rfl

/-! ### The takes that lift a hold -/

/-- s with all of OBUF gone to the consumer, in order, and the schedule ms left (R43). -/
def State.takeAll (s : State) (ms : List Move) : State :=
  { s with
    block := { s.block with obuf := [] }
    env := { s.env with moves := ms, taken := s.env.taken ++ s.block.obuf } }

/-- With OBUF empty there is nothing to take. -/
theorem State.takeAll_of_nil {s : State} (hobuf : s.block.obuf = []) (ms : List Move) :
    s.takeAll ms = s.withMoves ms := by
  rw [State.takeAll, hobuf, List.append_nil, ← hobuf]
  rfl

/-- Taking the head first and then the rest is taking all of OBUF. -/
theorem State.takeAll_of_cons {s : State} {e : Element} {rest : List Element} (hobuf : s.block.obuf = e :: rest)
    (ms : List Move) :
    { s with block := { s.block with obuf := rest }, env := { s.env with taken := s.env.taken ++ [e] } }.takeAll ms =
      s.takeAll ms := by
  simp [State.takeAll, hobuf]

/-- A run of as many takes as OBUF holds elements gives them all to the consumer, and then goes on (R43). -/
theorem run_takes {s : State} {ms : List Move} (k : Nat) (hseen : s.resetSeen = true) (hrst : s.env.rst = false)
    (hmoves : s.env.moves = List.replicate s.block.obuf.length .take ++ ms) :
    Host.Core.run Sys2Proof.core (s.block.obuf.length + k) s = Host.Core.run Sys2Proof.core k (s.takeAll ms) := by
  generalize hobuf : s.block.obuf = es at hmoves ⊢
  induction es generalizing s with
  | nil =>
    have hms : s.env.moves = ms := hmoves
    rw [List.length_nil, Nat.zero_add, State.takeAll_of_nil hobuf, ← hms]
    rfl
  | cons e rest ih =>
    have hstep := (step_cons hmoves).trans (takeMove_of_cons (s := s.withMoves _) hseen hrst hobuf)
    rw [List.length_cons, Nat.add_right_comm, run_of_step hstep]
    refine (ih ?_ ?_ ?_ ?_).trans (congrArg _ (State.takeAll_of_cons (s := s.withMoves _) hobuf ms))
    exacts [hseen, hrst, rfl, rfl]

/-- A command move with a legal word on offer, where a word completes, appends its elements and counts it (R90). -/
theorem commandMove_of_legal {s : State} {w : Word} {ws : List Word} (hc : s.Completing)
    (hoffer : s.env.cmds = w :: ws) (hlegal : legalWord w = true) :
    commandMove s = .next { s with
      block := { s.block with
        obuf := s.block.obuf ++ elemsOfWord s.params w
        pixcnt := s.block.pixcnt + 1 }
      env := { s.env with cmds := ws } } := by
  have hd := decode_of_legalWord hlegal
  rw [commandMove_ok hoffer hd, exec_of_completing hc, elemsOfWord_of_decode_ok _ hd, hoffer, List.tail_cons]

/-- An empty OBUF has the two free slots a word needs, at every capacity of R8 (R89). -/
theorem State.completing_of_obuf_nil {s : State} (hwf : s.params.wf = true) (hseen : s.resetSeen = true)
    (hrst : s.env.rst = false) (herr : s.block.err = false) (hobuf : s.block.obuf = []) : s.Completing := by
  obtain ⟨-, -, hready⟩ := readyExactlyWhenTwoSlotsOrError s
  exact State.completing_of_ready hseen (hready hwf hrst hobuf) herr

/-- Settles O35: the takes empty OBUF, so the command move after them completes the word or takes the error. -/
theorem takesLiftTheHold : Obligations.TakesLiftTheHold := by
  intro s ms w ws ⟨hwf, _⟩ hseen hrst herr hmoves hoffer
  have hc : (s.takeAll ms).Completing := State.completing_of_obuf_nil hwf hseen hrst herr rfl
  have hstep : step (s.takeAll (.command :: ms)) = commandMove (s.takeAll ms) :=
    step_cons (m := .command) (ms := ms) rfl
  rw [run_takes 1 hseen hrst hmoves]
  cases hlegal : legalWord w with
  | true => exact run_of_step (hstep.trans (commandMove_of_legal hc hoffer hlegal))
  | false =>
    have hbits : w &&& 0x1F000000#32 ≠ 0#32 := by simpa [legalWord] using hlegal
    exact run_of_step (hstep.trans (commandMove_of_illegal hc hoffer hbits))

end Sys2Proof.Machine
